-- ==== Sys2Proof/Syntax.lean ====
section
/-! DEFINITION. The instruction set: one constructor per row of spec/opcode_table.json. -/

namespace Sys2Proof

/-- The rows of the opcode table. No row encodes an operand (30_encoding.md R62); the three rows with bits that may hold
either value keep those bits, so that no bit of an encoding is dropped. -/
inductive Instr where
  /-- `NOP`, CMD `00` in IDLE (47_commands.md R190). -/
  | nop
  /-- `ENC`, CMD `01` in IDLE: accept an encryption (R191). -/
  | enc
  /-- `DEC`, CMD `10` in IDLE: accept a decryption (R192). -/
  | dec
  /-- `RSVD`, CMD `11` in IDLE: the reserved, illegal command (R193). The host-program line is `ILL` (R67). -/
  | rsvd
  /-- `NONE`, CMD `00` in RUN or FIN: no command, the sequencer step runs (R60, R61). -/
  | noCmd
  /-- `COLLIDE_ENC`, CMD `01` in RUN or FIN (R194). -/
  | collideEnc
  /-- `COLLIDE_DEC`, CMD `10` in RUN or FIN (R194). -/
  | collideDec
  /-- `COLLIDE_RSVD`, CMD `11` in RUN or FIN (R194). -/
  | collideRsvd
  /-- `IDLE`, SEQ `00-`: dispatch the command (45_round_schedule.md R170); `mode` is the bit written `-`. -/
  | idle (mode : BitVec 1)
  /-- `RUN_ENC`, SEQ `010`: one encryption round (R166). -/
  | runEnc
  /-- `RUN_DEC`, SEQ `011`: one decryption round (R167). -/
  | runDec
  /-- `FIN_ENC`, SEQ `100`: the encryption final transform (R168). -/
  | finEnc
  /-- `FIN_DEC`, SEQ `101`: the decryption final transform (R169). -/
  | finDec
  /-- `UNREACHABLE`, SEQ `11-` (R172); `mode` is the bit written `-`. -/
  | unreachable (mode : BitVec 1)
  /-- `RST`, HOST `1cc`: an edge with `rst = 1` (70_reset_and_hazards.md R250); `cc` is the ignored `cmd`. -/
  | rst (cc : BitVec 2)
deriving DecidableEq, Repr

end Sys2Proof
end

