-- ==== Sys2Proof/Decode.lean ====
section
/-! DEFINITION. Decoding (30_encoding.md R60, R61, R63, R67), then the encoder. The table has four encoding spaces that reuse
the same bit patterns: a CMD pattern means one row in IDLE and another in RUN or FIN, SEQ is a pattern of two registers and
HOST one of two ports. So a pattern is decoded IN a space, and an edge is decoded from the bits that select its rows. -/

namespace Sys2Proof

/-- The encoding spaces of the opcode table: its "format" column, CMD split by its "context" column (R61). -/
inductive Space where
  /-- CMD with `fsm` = IDLE: the 2-bit port `cmd` (R60). -/
  | cmdIdle
  /-- CMD with `fsm` = RUN or FIN: the 2-bit port `cmd` (R60). -/
  | cmdBusy
  /-- SEQ: the 3-bit value `{fsm[1:0], mode}` (R63). -/
  | seq
  /-- HOST: the 3-bit value `{rst, cmd[1:0]}` (R67). -/
  | host
deriving DecidableEq, Repr

/-- Why a byte is no row of a space. -/
inductive DecodeError where
  /-- A bit above the format's 2 (CMD) or 3 (SEQ, HOST) bits is set: there is no longer form (R66). -/
  | bitAboveFormat
  /-- A HOST value with `rst = 0`: the HOST format's only row is `RST` (`1cc`); the edge is a command's (R67). -/
  | rstLow
deriving DecidableEq, Repr

/-- `decode_cmd(IDLE, cmd)` of R61. -/
def decodeCmdIdle (c : BitVec 2) : Instr :=
  match c with
  | 0b00#2 => .nop
  | 0b01#2 => .enc
  | 0b10#2 => .dec
  | 0b11#2 => .rsvd

/-- `decode_cmd(RUN or FIN, cmd)` of R61; the three COLLIDE rows of the table are its one COLLIDE. -/
def decodeCmdBusy (c : BitVec 2) : Instr :=
  match c with
  | 0b00#2 => .noCmd
  | 0b01#2 => .collideEnc
  | 0b10#2 => .collideDec
  | 0b11#2 => .collideRsvd

/-- The table of R63: the sequencer step selected by `{fsm[1:0], mode}`. -/
def decodeSeq (v : BitVec 3) : Instr :=
  match v with
  | 0b000#3 => .idle 0
  | 0b001#3 => .idle 1
  | 0b010#3 => .runEnc
  | 0b011#3 => .runDec
  | 0b100#3 => .finEnc
  | 0b101#3 => .finDec
  | 0b110#3 => .unreachable 0
  | 0b111#3 => .unreachable 1

/-- The HOST format: `1cc` is `RST`, whatever `cc` is (R67, R250). -/
def decodeHost (v : BitVec 3) : Except DecodeError Instr :=
  if v.getLsbD 2 then .ok (.rst (v.extractLsb' 0 2)) else .error .rstLow

/-- Decode a byte in a space; total, rejecting by name. -/
def decode (sp : Space) (b : BitVec 8) : Except DecodeError Instr :=
  match sp with
  | .cmdIdle =>
    if b.extractLsb' 2 6 = 0 then .ok (decodeCmdIdle (b.extractLsb' 0 2)) else .error .bitAboveFormat
  | .cmdBusy =>
    if b.extractLsb' 2 6 = 0 then .ok (decodeCmdBusy (b.extractLsb' 0 2)) else .error .bitAboveFormat
  | .seq =>
    if b.extractLsb' 3 5 = 0 then .ok (decodeSeq (b.extractLsb' 0 3)) else .error .bitAboveFormat
  | .host =>
    if b.extractLsb' 3 5 = 0 then decodeHost (b.extractLsb' 0 3) else .error .bitAboveFormat

/-- What selects the rows of one edge: `{fsm[1:0], mode, rst, cmd[1:0]}`, `cmd` in bits 1..0, `rst` in bit 2, `mode` in bit 3,
`fsm` in bits 5..4. Bits 2..0 are the host's (R67), bits 5..3 the sequencer's (R63). -/
abbrev EdgeWord := BitVec 6

/-- The port `cmd` in an edge word. -/
def EdgeWord.cmd (w : EdgeWord) : BitVec 2 := w.extractLsb' 0 2

/-- The port `rst` in an edge word. -/
def EdgeWord.rst (w : EdgeWord) : Bool := w.getLsbD 2

/-- The SEQ value `{fsm[1:0], mode}` in an edge word. -/
def EdgeWord.seq (w : EdgeWord) : BitVec 3 := w.extractLsb' 3 3

/-- The code of `fsm` in an edge word. -/
def EdgeWord.fsm (w : EdgeWord) : BitVec 2 := w.extractLsb' 4 2

/-- The row an edge runs, in the priority of 60_exceptions.md R226: `rst = 1` before everything; else the command row that
R61 gives for `fsm` and `cmd` (each edge has exactly one command, R60). An edge with `fsm = 11` has no command row, and its
sequencer row UNREACHABLE stands for it (R63). -/
def decodeEdge (w : EdgeWord) : Instr :=
  if w.rst then .rst w.cmd
  else match w.fsm with
    | 0b00#2 => decodeCmdIdle w.cmd
    | 0b01#2 => decodeCmdBusy w.cmd
    | 0b10#2 => decodeCmdBusy w.cmd
    | 0b11#2 => decodeSeq w.seq

/-- The sequencer row of an edge with `rst = 0` (R63). It names the same edge as `decodeEdge`. -/
def decodeEdgeSeq (w : EdgeWord) : Instr := decodeSeq w.seq

/-- The instruction this decoder reads from a table word. The one word that can be PRESENTED to this machine is the host's
`{rst, cmd[1:0]}` (R67); `fsm` and `mode` are then those of the state after reset, 00 and 0. The other spaces of the table
reuse the same patterns, and no word alone tells them apart (log entry 10). -/
def decodeTableWord (nbits w : Nat) : Option Instr :=
  if w < 8 ∧ w < 2 ^ nbits then some (decodeEdge (BitVec.ofNat 6 w)) else none

/-- The encoder: the space of a row and its bits there, as the encoding column of the opcode table spells them. -/
def encode (i : Instr) : Space × BitVec 8 :=
  match i with
  | .nop => (.cmdIdle, 0b00)
  | .enc => (.cmdIdle, 0b01)
  | .dec => (.cmdIdle, 0b10)
  | .rsvd => (.cmdIdle, 0b11)
  | .noCmd => (.cmdBusy, 0b00)
  | .collideEnc => (.cmdBusy, 0b01)
  | .collideDec => (.cmdBusy, 0b10)
  | .collideRsvd => (.cmdBusy, 0b11)
  | .idle m => (.seq, 0b000 ||| m.setWidth 8)
  | .runEnc => (.seq, 0b010)
  | .runDec => (.seq, 0b011)
  | .finEnc => (.seq, 0b100)
  | .finDec => (.seq, 0b101)
  | .unreachable m => (.seq, 0b110 ||| m.setWidth 8)
  | .rst cc => (.host, 0b100 ||| cc.setWidth 8)

end Sys2Proof
end

