-- ==== Sys2Proof/Word.lean ====
section
/-! DEFINITION. The Word, the 384-bit port value and the Block of twelve Words (00_scope.md R7). -/

namespace Sys2Proof

/-- A Word: a 32-bit unsigned value, bit 0 least significant (R7). -/
abbrev Word := BitVec 32

/-- The value of a 384-bit port: `block_in`, `key_in` or `block_out` (R30, R31). -/
abbrev PortWord := BitVec 384

/-- A Block: exactly 12 Words, `w0` at index 0 (R7). A Key has the same shape. Twelve named fields make a Block of
another length impossible to write (R221, ShapeError). -/
structure Block where
  w0 : Word
  w1 : Word
  w2 : Word
  w3 : Word
  w4 : Word
  w5 : Word
  w6 : Word
  w7 : Word
  w8 : Word
  w9 : Word
  w10 : Word
  w11 : Word
deriving DecidableEq, Repr, Inhabited

/-- Word `i` of a Block, `b[i]` (R7). -/
def Block.get (b : Block) (i : Fin 12) : Word :=
  match i with
  | 0 => b.w0
  | 1 => b.w1
  | 2 => b.w2
  | 3 => b.w3
  | 4 => b.w4
  | 5 => b.w5
  | 6 => b.w6
  | 7 => b.w7
  | 8 => b.w8
  | 9 => b.w9
  | 10 => b.w10
  | 11 => b.w11

/-- The Block whose word `i` is `f i`: how the rules write every layer, `LAYER(b)[i] = … for i in 0..11`. -/
def Block.ofFn (f : Fin 12 → Word) : Block :=
  ⟨f 0, f 1, f 2, f 3, f 4, f 5, f 6, f 7, f 8, f 9, f 10, f 11⟩

/-- `[x]*12`: every word the same. -/
def Block.fill (x : Word) : Block := Block.ofFn fun _ => x

/-- The Block with the one word `x` at index `i` and zero elsewhere. -/
def Block.single (i : Fin 12) (x : Word) : Block := Block.ofFn fun j => if j = i then x else 0

/-- The all-zero Block, `0^12`: the reset value of `S` and `K` (R20, R21). -/
def Block.zero : Block := Block.fill 0

/-- The all-ones Block, `[0xFFFFFFFF]*12`. -/
def Block.ones : Block := Block.fill 0xFFFFFFFF

end Sys2Proof
end

