-- ==== Sys2Proof/Config.lean ====
section
/-! DEFINITION. What the spec leaves to the implementation or the platform: opaque constants without a body, so that no
proof can see a value of them (93_implementation_defined.md part 1). -/

namespace Sys2Proof

/-- The twelve round constants `RC_TABLE[0..11]` (00_scope.md R5): an OPEN parameter, its values not in the spec (I1, D15).
Only `State.reset` and `State.powerUp` read it, into the state's ROM; every other definition reads the ROM of its state, so
a statement about all states holds for every table (log entry 1). -/
opaque Config.rcTable : Block

/-- `S` at power-up, before the first reset edge: a free draw (10_state.md R36, I5; log entry 8). -/
opaque Config.powerUpS : Block

/-- `K` at power-up: a free draw (R36; log entry 8). -/
opaque Config.powerUpK : Block

/-- The 2-bit code of `fsm` at power-up: a free draw, which may be the unreachable code 11 (R36, I5; log entry 8). -/
opaque Config.powerUpFsm : BitVec 2

/-- `rnd` at power-up: a free draw, which may be out of range (R36, I5; log entry 8). -/
opaque Config.powerUpRnd : BitVec 4

/-- The bit of `mode` at power-up: a free draw (R36; log entry 8). -/
opaque Config.powerUpMode : BitVec 1

/-- `done` at power-up: a free draw (R36; log entry 8). -/
opaque Config.powerUpDone : Bool

/-- `err` at power-up: a free draw (R36; log entry 8). -/
opaque Config.powerUpErr : Bool

/-- `T_SETUP`, an OPEN platform parameter that no rule reads (70_reset_and_hazards.md R256, I8; log entry 9). -/
opaque Config.tSetup : Nat

/-- `T_HOLD`, an OPEN platform parameter that no rule reads (R256, I8; log entry 9). -/
opaque Config.tHold : Nat

/-- `F_MAX`, an OPEN platform parameter that no rule reads (R256, I8; log entry 9). -/
opaque Config.fMax : Nat

end Sys2Proof
end

