-- ==== Sys2Proof/Machine/State.lean ====
section
/-! DEFINITION. The state of the core (10_state.md), its input ports and what the host drives later; why a step can stop; the
state after a reset edge and the state at power-up. -/

namespace Sys2Proof.Machine

/-- The direction of a run, register `mode`: 0 = enc, 1 = dec (R26). -/
inductive Mode where
  | enc
  | dec
deriving DecidableEq, Repr, Inhabited

/-- Register `fsm`, one constructor per 2-bit code (R24): IDLE 00, RUN 01, FIN 10, and the code 11 that is unreachable from
reset (R172). -/
inductive Fsm where
  | idle
  | run
  | fin
  | code11
deriving DecidableEq, Repr, Inhabited

/-- The value the host drives on each input port at one edge (R30). The port `clk` is the step itself. -/
structure Inputs where
  rst : Bool
  cmd : BitVec 2
  blockIn : PortWord
  keyIn : PortWord
deriving DecidableEq, Repr, Inhabited

/-- The machine: every register of 10_state.md R29, the round-constant ROM (20_memory.md R41), the input ports as the host
drives them for the coming edge (R30), and what it drives at the edges after that. -/
structure State where
  /-- State register, 12 Words (R20). -/
  S : Block
  /-- Working key register, 12 Words (R21). -/
  K : Block
  /-- Direction of the run (R26). -/
  mode : Mode
  /-- Round counter, 4 bits (R25). -/
  rnd : BitVec 4
  /-- Sequencer state (R24). -/
  fsm : Fsm
  /-- Status bit `done` (R27). -/
  done : Bool
  /-- Status bit `err` (R28). -/
  err : Bool
  /-- `ROM_RC`, fixed for the life of the core (R41, R6). -/
  rom : Block
  /-- The input ports at the coming edge (R30). -/
  ports : Inputs
  /-- The model's own field: what the host drives at the later edges, one entry per edge (30_encoding.md R67; log entry 3). -/
  lines : List Inputs
deriving DecidableEq, Repr, Inhabited

/-- Why the machine stops. -/
inductive Fault where
  /-- The sequencer is in a state that 45_round_schedule.md R172 calls unreachable and gives no behaviour: `fsm` = 11, or
  `rnd` outside its phase's range. Raised by every row of the CMD and SEQ formats and so by `step` at an edge with `rst = 0`,
  never from a state reachable from reset; the row UNREACHABLE raises it in every state. Safe: R172 and I6 ask for a fault on
  entering such a state, and raising it from one that is held is the model's choice (log entry 7). -/
  | unreachableSequencer
deriving DecidableEq, Repr

/-- Why an instruction has no meaning. -/
inductive Refusal where
  /-- The row is not modelled yet; raised by `exec`'s arms only. Safe. No arm raises it in this model. -/
  | notModelled (mnemonic : String)
  /-- `exec` was asked to run a row at an edge that the row's context in the opcode table excludes (a row of IDLE while a run
  is in progress, or with `rst = 1`, …). At such an edge the core runs another row, which `step` decodes, so `step` never
  raises it. Safe (log entry 6). -/
  | outOfContext
deriving DecidableEq, Repr

/-- What a meaning answers. -/
abbrev Result := Host.Outcome State Fault Refusal

/-- A host that drives nothing of interest: `rst = 0`, `cmd = 00`, both data ports zero (log entry 2). -/
def Inputs.quiet : Inputs := ⟨false, 0, 0, 0⟩

/-- The state just after a reset edge (70_reset_and_hazards.md R250, R251). The registers are as the spec says; the ROM is the
free parameter `Config.rcTable` (log entry 1); the ports are the host's, quiet (log entry 2), with no later line (log entry 3). -/
def State.reset : State :=
  { S := Block.zero, K := Block.zero, mode := .enc, rnd := 0, fsm := .idle, done := false, err := false,
    rom := Config.rcTable, ports := Inputs.quiet, lines := [] }

/-- `mode` from its bit (R26). -/
def Mode.ofBit (b : BitVec 1) : Mode := if b = 0 then .enc else .dec

/-- `fsm` from its code (R24). -/
def Fsm.ofCode (c : BitVec 2) : Fsm :=
  match c with
  | 0b00#2 => .idle
  | 0b01#2 => .run
  | 0b10#2 => .fin
  | 0b11#2 => .code11

/-- A state at power-up, before the first reset edge: every register a free draw (R36, R253; log entry 8), whatever the host
drives. -/
def State.powerUp (ports : Inputs) (lines : List Inputs) : State :=
  { S := Config.powerUpS, K := Config.powerUpK, mode := .ofBit Config.powerUpMode, rnd := Config.powerUpRnd,
    fsm := .ofCode Config.powerUpFsm, done := Config.powerUpDone, err := Config.powerUpErr,
    rom := Config.rcTable, ports := ports, lines := lines }

end Sys2Proof.Machine
end

