-- ==== Sys2Proof/Machine/Datapath.lean ====
section
/-! DEFINITION. The combinational functions of the datapath (files 40 to 46 of spec/): total functions on Words and Blocks,
each layer computed from one snapshot of its argument (00_scope.md R9). The round-constant ROM is an argument, `rom`. -/

namespace Sys2Proof.Machine

/-! ### Word rotation shifter (40_word_rotation.md) -/

/-- `rotl32(x, a)` (R100). -/
def rotl32 (x : Word) (a : Nat) : Word :=
  if a % 32 = 0 then x else (x <<< (a % 32)) ||| (x >>> (32 - a % 32))

/-- `rotr32(x, a)` (R101). -/
def rotr32 (x : Word) (a : Nat) : Word :=
  if a % 32 = 0 then x else (x >>> (a % 32)) ||| (x <<< (32 - a % 32))

/-! ### Block operators (R9, R160) -/

/-- `XOR_BLOCK(a, b)` (R9). -/
def xorBlock (a b : Block) : Block := .ofFn fun i => a.get i ^^^ b.get i

/-- `REVERSE(b)[i] = b[11 - i]` (R160); `Fin.rev i` is `11 - i`. -/
def reverse (b : Block) : Block := .ofFn fun i => b.get i.rev

/-! ### Diffusion mixer (41_diffusion.md) -/

/-- `OFF`, the seven diffusion offsets (R5, R110). -/
def offsets : List (Fin 12) := [0, 2, 6, 7, 9, 10, 11]

/-- XOR over `o` in `os` of `b[(i + o) mod 12]`; addition in `Fin 12` is mod 12. -/
def xorAt (os : List (Fin 12)) (b : Block) (i : Fin 12) : Word :=
  os.foldr (fun o acc => b.get (i + o) ^^^ acc) 0

/-- `DIFFUSE` (R110). -/
def diffuse (b : Block) : Block := .ofFn fun i => xorAt offsets b i

/-- The offsets of `DIFFUSE_INV` (R113). -/
def inverseOffsets : List (Fin 12) := [0, 1, 2, 3, 5, 6, 10]

/-- `DIFFUSE_INV` (R113). The core never computes it; it is here to be spoken about. -/
def diffuseInv (b : Block) : Block := .ofFn fun i => xorAt inverseOffsets b i

/-! ### Shift layer (42_shift_layer.md) -/

/-- The rotation table `R` (R5, R42). -/
def rotTable : List Nat := [0, 1, 3, 6, 10, 15, 21, 28, 4, 13, 23, 2]

/-- `R[i]`. -/
def rotAmount (i : Fin 12) : Nat := rotTable.getD i.val 0

/-- `EARLY_SHIFT` (R120). -/
def earlyShift (b : Block) : Block := .ofFn fun i => rotl32 (b.get i) (rotAmount i)

/-- `LATE_SHIFT` (R121). -/
def lateShift (b : Block) : Block := .ofFn fun i => rotr32 (b.get i) (rotAmount i.rev)

/-! ### Substitution layer (43_substitution.md) -/

/-- `SUBSTITUTE` (R130). -/
def substitute (b : Block) : Block := .ofFn fun i => b.get i ^^^ (b.get (i + 4) ||| ~~~(b.get (i + 8)))

/-! ### Round-constant injection (44_round_constant_injection.md) -/

/-- `TPOS`, the constant positions (R5, R140). -/
def templatePositions : List (Fin 12) := [2, 3, 8, 9]

/-- `TEMPLATE(c)` (R140). -/
def template (c : Word) : Block := .ofFn fun i => if i ∈ templatePositions then c else 0

/-- `ROM_RC(r) = RC_TABLE[r]` (20_memory.md R41). -/
def romRC (rom : Block) (r : Fin 12) : Word := rom.get r

/-- `INJECT_ENC(b, k, r)` (R141). -/
def injectEnc (rom b k : Block) (r : Fin 12) : Block :=
  .ofFn fun i => b.get i ^^^ k.get i ^^^ (template (romRC rom r)).get i

/-- `INJECT_DEC(b, k, r)` (R142), the compensating construction as the rule writes it; `r.rev` is `11 - r`. -/
def injectDec (rom b k : Block) (r : Fin 12) : Block :=
  .ofFn fun i => b.get i ^^^ k.get i ^^^ (diffuse (reverse (template (romRC rom r.rev)))).get i

/-- `INJECT(mode, b, k, r)` (R144). -/
def inject (rom : Block) (m : Mode) (b k : Block) (r : Fin 12) : Block :=
  match m with
  | .enc => injectEnc rom b k r
  | .dec => injectDec rom b k r

/-! ### Round schedule as functions (45_round_schedule.md part 1) -/

/-- `ROUND(mode, b, k, r)`, `r` in 0..10 (R162). -/
def mainRound (rom : Block) (m : Mode) (b k : Block) (r : Fin 11) : Block :=
  lateShift (substitute (earlyShift (diffuse (inject rom m b k r.castSucc))))

/-- `FINAL(mode, b, k)`, round index 11 (R163). -/
def finalTransform (rom : Block) (m : Mode) (b k : Block) : Block := reverse (diffuse (inject rom m b k 11))

/-- The indices of the 11 main rounds, in order (R161). -/
def roundIndices : List (Fin 11) := [0, 1, 2, 3, 4, 5, 6, 7, 8, 9, 10]

/-- The Block after the first `j` main rounds of `CIPHER` (the loop of R161; R173). -/
def afterRounds (rom : Block) (m : Mode) (b k : Block) (j : Nat) : Block :=
  (roundIndices.take j).foldl (fun acc r => mainRound rom m acc k r) b

/-- `CIPHER(mode, b, k)` with the working key `k` (R161). -/
def cipher (rom : Block) (m : Mode) (b k : Block) : Block := finalTransform rom m (afterRounds rom m b k 11) k

/-! ### Key inverter (46_key_inversion.md) -/

/-- `KEY_INVERT(k) = REVERSE(DIFFUSE(k))` (R180). -/
def keyInvert (k : Block) : Block := reverse (diffuse k)

/-- The working key `WK(mode, k)` (R181). -/
def workingKey (m : Mode) (k : Block) : Block :=
  match m with
  | .enc => k
  | .dec => keyInvert k

/-- `encrypt(B, K)` (R182). -/
def encrypt (rom b k : Block) : Block := cipher rom .enc b (workingKey .enc k)

/-- `decrypt(C, K)` (R182). -/
def decrypt (rom c k : Block) : Block := cipher rom .dec c (workingKey .dec k)

end Sys2Proof.Machine
end

