-- ==== Sys2Proof/Machine/Operands.lean ====
section
/-! DEFINITION. The layout of a Block on a 384-bit port (20_memory.md R43) and the two operands of a command (30_encoding.md R62). -/

namespace Sys2Proof.Machine

/-- The lowest port bit of word `i`: `352 - 32*i` (R43). -/
def portBit (i : Fin 12) : Nat := 352 - 32 * i.val

/-- The word indices, word 0 first. -/
def wordIndices : List (Fin 12) := [0, 1, 2, 3, 4, 5, 6, 7, 8, 9, 10, 11]

/-- `pack(b)`: word `i` in the 32 port bits from `352 - 32*i` up, word 0 most significant (R43). -/
def pack (b : Block) : PortWord :=
  wordIndices.foldr (fun i acc => ((b.get i).setWidth 384 <<< portBit i) ||| acc) 0

/-- `unpack(v)`: word `i` is the 32 bits from bit `352 - 32*i` up (R43). -/
def unpack (v : PortWord) : Block := .ofFn fun i => v.extractLsb' (portBit i) 32

/-- The Block operand at an edge: `unpack(block_in)` (R62). -/
def blockOperand (p : Inputs) : Block := unpack p.blockIn

/-- The Key operand at an edge: `unpack(key_in)` (R62). -/
def keyOperand (p : Inputs) : Block := unpack p.keyIn

end Sys2Proof.Machine
end

