-- ==== Sys2Proof/Machine/Flags.lean ====
section
/-! DEFINITION. The status bits `busy`, `done` and `err` (10_state.md R27, R28, R31, R34) and the output ports. The core has no
arithmetic flags (R34). -/

namespace Sys2Proof.Machine

/-- Output `busy`: 1 when `fsm` is not IDLE (R31). -/
def busy (s : State) : Bool := s.fsm != .idle

/-- Output `block_out` = `pack(S)`, at all times (R31). -/
def blockOut (s : State) : PortWord := pack s.S

/-- The output ports (R31). -/
structure Outputs where
  blockOut : PortWord
  busy : Bool
  done : Bool
  err : Bool
deriving DecidableEq, Repr

/-- What the host can read: a function of the registers alone (R31). -/
def outputs (s : State) : Outputs := ⟨blockOut s, busy s, s.done, s.err⟩

/-- An error condition, ILLEGAL or COLLIDE: `err <- 1` and nothing else (60_exceptions.md R222, R223). This is all the core has
in place of taking an exception: there is no trap (R220). -/
def raiseErr (s : State) : State := { s with err := true }

/-- `if cmd != 00: err <- 1` (R194): the collision part of an edge in RUN or FIN. -/
def collide (c : BitVec 2) (s : State) : State := if c ≠ 0 then raiseErr s else s

/-- An acceptance edge clears both status bits (R27, R28, R191, R192). -/
def clearStatus (s : State) : State := { s with done := false, err := false }

/-- The FIN edge sets `done` (R27). -/
def setDone (s : State) : State := { s with done := true }

end Sys2Proof.Machine
end

