-- ==== Sys2Proof/Machine/Ops.lean ====
section
/-! DEFINITION. The shared operations over the state: where the sequencer stands, the register transfers of one edge, the
context of a row, the ports. All right-hand sides read the pre-edge values (00_scope.md R10). -/

namespace Sys2Proof.Machine

/-! ### Codes and the bits that select an edge's rows -/

/-- The 2-bit code of `fsm` (R24). -/
def Fsm.code (f : Fsm) : BitVec 2 :=
  match f with
  | .idle => 0b00
  | .run => 0b01
  | .fin => 0b10
  | .code11 => 0b11

/-- The bit of `mode` (R26). -/
def Mode.bit (m : Mode) : BitVec 1 :=
  match m with
  | .enc => 0
  | .dec => 1

/-- The SEQ value `{fsm[1:0], mode}` (30_encoding.md R63). -/
def seqWord (s : State) : BitVec 3 := s.fsm.code ++ s.mode.bit

/-- The host's value `{rst, cmd[1:0]}` at the coming edge (R67). -/
def hostWord (p : Inputs) : BitVec 3 := BitVec.ofBool p.rst ++ p.cmd

/-- The bits that select the rows of the coming edge, `{fsm, mode, rst, cmd}`: this machine's fetch. It has no program counter
and fetches nothing from memory (R23, R53). -/
def edgeWord (s : State) : EdgeWord := seqWord s ++ hostWord s.ports

/-! ### The sequencer's position (10_state.md R32, 45_round_schedule.md R172) -/

/-- The legal sequencer states, `IDLE | RUN (r : Fin 11) | FIN` (R32). -/
inductive SeqPos where
  | idle
  | run (r : Fin 11)
  | fin
deriving DecidableEq, Repr

/-- The position that `fsm` and `rnd` give; none in the unreachable states that R172 lists. -/
def seqPos (s : State) : Option SeqPos :=
  match s.fsm with
  | .idle => if s.rnd = 0 then some .idle else none
  | .run => if h : s.rnd.toNat < 11 then some (.run ⟨s.rnd.toNat, h⟩) else none
  | .fin => if s.rnd = 11 then some .fin else none
  | .code11 => none

/-! ### Register transfers of one edge -/

/-- Acceptance of a command (47_commands.md R191, R192): operands in, working key computed, run started, status cleared. -/
def accept (m : Mode) (s : State) : State :=
  clearStatus { s with
    S := blockOperand s.ports
    K := workingKey m (keyOperand s.ports)
    mode := m
    rnd := 0
    fsm := .run }

/-- One main round of direction `m` at round index `r` (R166, R167), without the collision. -/
def roundEdge (m : Mode) (r : Fin 11) (s : State) : State :=
  { s with
    S := mainRound s.rom m s.S s.K r
    rnd := if s.rnd = 10 then 11 else s.rnd + 1
    fsm := if s.rnd = 10 then .fin else .run }

/-- The final transform of direction `m` (R168, R169), without the collision. -/
def finalEdge (m : Mode) (s : State) : State :=
  setDone { s with
    S := finalTransform s.rom m s.S s.K
    rnd := 0
    fsm := .idle }

/-- A reset edge: every register to its reset value (70_reset_and_hazards.md R250). The ROM and the input ports are no
registers. -/
def resetRegs (s : State) : State :=
  { s with
    S := Block.zero, K := Block.zero, mode := .enc, rnd := 0, fsm := .idle, done := false, err := false }

/-! ### The context of a row (the opcode table's "context" column) -/

/-- An edge with `rst = 0` and the sequencer in IDLE, whose effect is `f`. -/
def idleEdge (f : State → State) (s : State) : Result :=
  if s.ports.rst then .refused .outOfContext
  else match seqPos s with
    | some .idle => .next (f s)
    | some (.run _) => .refused .outOfContext
    | some .fin => .refused .outOfContext
    | none => .fault .unreachableSequencer

/-- An edge with `rst = 0` and a run in progress: the sequencer step that `fsm` and `mode` select (R166 to R169) and, at the same
edge, the command's effect `f` on `err` (R194, R226). -/
def busyEdge (f : State → State) (s : State) : Result :=
  if s.ports.rst then .refused .outOfContext
  else match seqPos s with
    | some .idle => .refused .outOfContext
    | some (.run r) => .next (f (roundEdge s.mode r s))
    | some .fin => .next (f (finalEdge s.mode s))
    | none => .fault .unreachableSequencer

/-- SEQ step of a main round in direction `m` (R166, R167): it reads the port `cmd` for the collision. -/
def seqRound (m : Mode) (s : State) : Result :=
  if s.ports.rst then .refused .outOfContext
  else match seqPos s with
    | some (.run r) => if s.mode = m then .next (collide s.ports.cmd (roundEdge m r s)) else .refused .outOfContext
    | some .idle => .refused .outOfContext
    | some .fin => .refused .outOfContext
    | none => .fault .unreachableSequencer

/-- SEQ step of the final transform in direction `m` (R168, R169): it reads the port `cmd` for the collision. -/
def seqFinal (m : Mode) (s : State) : Result :=
  if s.ports.rst then .refused .outOfContext
  else match seqPos s with
    | some .fin => if s.mode = m then .next (collide s.ports.cmd (finalEdge m s)) else .refused .outOfContext
    | some .idle => .refused .outOfContext
    | some (.run _) => .refused .outOfContext
    | none => .fault .unreachableSequencer

/-- What the command `c` does at an edge in IDLE (R190 to R193). -/
def command (c : BitVec 2) (s : State) : State :=
  match c with
  | 0b00#2 => s
  | 0b01#2 => accept .enc s
  | 0b10#2 => accept .dec s
  | 0b11#2 => raiseErr s

/-! ### The ports -/

/-- After an edge the host drives its next line; after its last line it drives `rst = 0`, `cmd = 00` and leaves the data ports
as they are (log entry 3). -/
def hostDrives (s : State) : State :=
  match s.lines with
  | [] => { s with ports := { s.ports with rst := false, cmd := 0 } }
  | l :: ls => { s with ports := l, lines := ls }

/-- The host drives `{rst, cmd[1:0]}` = `w` at the coming edge and leaves the data ports as they are (log entry 10). -/
def driveHostWord (w : BitVec 3) (s : State) : State :=
  { s with ports := { s.ports with rst := w.getLsbD 2, cmd := w.extractLsb' 0 2 } }

end Sys2Proof.Machine
end

