-- ==== Sys2Proof/Machine/Command.lean ====
section
/-! DEFINITION. The meanings of the CMD rows (47_commands.md). -/

namespace Sys2Proof.Machine

/-- `NOP` in IDLE: no register changes (R190). -/
def execNop (s : State) : Result := idleEdge (fun t => t) s

/-- `ENC` in IDLE: accept an encryption (R191). -/
def execEnc (s : State) : Result := idleEdge (accept .enc) s

/-- `DEC` in IDLE: accept a decryption (R192). -/
def execDec (s : State) : Result := idleEdge (accept .dec) s

/-- The reserved command in IDLE: the ILLEGAL condition, `err <- 1` (R193, R222). -/
def execRsvd (s : State) : Result := idleEdge raiseErr s

/-- No command in RUN or FIN: the sequencer step of the edge (R61, R166 to R169). -/
def execNoCmd (s : State) : Result := busyEdge (fun t => t) s

/-- `cmd = 01` in RUN or FIN: a collision, `err <- 1` beside the sequencer step (R194, R226). -/
def execCollideEnc (s : State) : Result := busyEdge raiseErr s

/-- `cmd = 10` in RUN or FIN: a collision (R194, R226). -/
def execCollideDec (s : State) : Result := busyEdge raiseErr s

/-- `cmd = 11` in RUN or FIN: a collision (R194, R226). -/
def execCollideRsvd (s : State) : Result := busyEdge raiseErr s

end Sys2Proof.Machine
end

