-- ==== Sys2Proof/Machine/Reset.lean ====
section
/-! DEFINITION. The meaning of the HOST row (70_reset_and_hazards.md). -/

namespace Sys2Proof.Machine

/-- `RST`: a reset edge, whatever the state, `cmd` and the data ports are (R250, R226); `cc` is the ignored `cmd`. -/
def execRst (_cc : BitVec 2) (s : State) : Result := .next (resetRegs s)

end Sys2Proof.Machine
end

