-- ==== Sys2Proof/Machine/Sequencer.lean ====
section
/-! DEFINITION. The meanings of the SEQ rows (45_round_schedule.md part 2). -/

namespace Sys2Proof.Machine

/-- `IDLE`: the edge performs the command on `cmd` (R170); `mode` may hold either value (R63). -/
def execIdle (_mode : BitVec 1) (s : State) : Result := idleEdge (command s.ports.cmd) s

/-- `RUN_ENC`: one encryption round, round index `rnd` (R166). -/
def execRunEnc (s : State) : Result := seqRound .enc s

/-- `RUN_DEC`: one decryption round, round index `rnd` (R167). -/
def execRunDec (s : State) : Result := seqRound .dec s

/-- `FIN_ENC`: the encryption final transform (R168). -/
def execFinEnc (s : State) : Result := seqFinal .enc s

/-- `FIN_DEC`: the decryption final transform (R169). -/
def execFinDec (s : State) : Result := seqFinal .dec s

/-- `UNREACHABLE`: the spec gives `fsm` = 11 no behaviour, and a model that represents it treats it as a fault (R172, I6). -/
def execUnreachable (_mode : BitVec 1) (_s : State) : Result := .fault .unreachableSequencer

end Sys2Proof.Machine
end

