-- ==== Sys2Proof/Machine/Dispatch.lean ====
section
/-! DEFINITION. The dispatch: one arm per row of the opcode table. -/

namespace Sys2Proof.Machine

-- The effect of the whole edge that runs row `i`.
def exec (i : Instr) (s : State) : Host.Outcome State Fault Refusal :=
  match i with
  -- CMD rows with fsm = IDLE
  | .nop => Sys2Proof.Machine.execNop s
  | .enc => Sys2Proof.Machine.execEnc s
  | .dec => Sys2Proof.Machine.execDec s
  | .rsvd => Sys2Proof.Machine.execRsvd s
  -- CMD rows with fsm in RUN or FIN
  | .noCmd => Sys2Proof.Machine.execNoCmd s
  | .collideEnc => Sys2Proof.Machine.execCollideEnc s
  | .collideDec => Sys2Proof.Machine.execCollideDec s
  | .collideRsvd => Sys2Proof.Machine.execCollideRsvd s
  -- SEQ rows
  | .idle mode => Sys2Proof.Machine.execIdle mode s
  | .runEnc => Sys2Proof.Machine.execRunEnc s
  | .runDec => Sys2Proof.Machine.execRunDec s
  | .finEnc => Sys2Proof.Machine.execFinEnc s
  | .finDec => Sys2Proof.Machine.execFinDec s
  | .unreachable mode => Sys2Proof.Machine.execUnreachable mode s
  -- HOST row
  | .rst cc => Sys2Proof.Machine.execRst cc s

end Sys2Proof.Machine
end

