-- ==== Sys2Proof/Machine/Step.lean ====
section
/-! DEFINITION. One step: one rising edge of `clk` (00_scope.md R11), then the host drives its next line. -/

namespace Sys2Proof.Machine

/-- One rising edge: decode the row that the sequencer registers and the ports select, run it, and let the host drive the ports
for the edge after it (20_memory.md R50). -/
def step (s : State) : Host.Outcome State Fault Refusal :=
  match exec (decodeEdge (edgeWord s)) s with
  | .next t => .next (hostDrives t)
  | .fault f => .fault f
  | .refused r => .refused r

/-- The state in which the host drives the table word `w`, `{rst, cmd[1:0]}`, at the coming edge (log entry 10). -/
def State.withFetchWord (s : State) (_nbits w : Nat) : State := driveHostWord (BitVec.ofNat 3 w) s

end Sys2Proof.Machine
end

