-- ==== Sys2Proof/Machine/NextFunction.lean ====
section
/-! DEFINITION. The step function `next` as 45_round_schedule.md R171 writes it, transcribed from its pseudocode alone and beside
the opcode table's rows. The machine does not use it; statements compare the two. -/

namespace Sys2Proof.Machine

/-- `next(st, in)` of R171 at the legal sequencer position `p` of `st` (R32), the case on `st.fsm` being a case on `p`. -/
def nextFunction (p : SeqPos) (st : State) (i : Inputs) : State :=
  if i.rst then
    { st with S := Block.zero, K := Block.zero, mode := .enc, rnd := 0, fsm := .idle, done := false, err := false }
  else match p with
    | .idle =>
      if i.cmd = 0b00 then st
      else if i.cmd = 0b01 then
        { st with S := unpack i.blockIn, K := unpack i.keyIn,
                  mode := .enc, rnd := 0, fsm := .run, done := false, err := false }
      else if i.cmd = 0b10 then
        { st with S := unpack i.blockIn, K := keyInvert (unpack i.keyIn),
                  mode := .dec, rnd := 0, fsm := .run, done := false, err := false }
      else { st with err := true }
    | .run r =>
      { st with S := mainRound st.rom st.mode st.S st.K r,
                rnd := if r = 10 then 11 else BitVec.ofNat 4 (r.val + 1),
                fsm := if r = 10 then .fin else .run,
                err := if i.cmd ≠ 0b00 then true else st.err }
    | .fin =>
      { st with S := finalTransform st.rom st.mode st.S st.K, rnd := 0, fsm := .idle, done := true,
                err := if i.cmd ≠ 0b00 then true else st.err }

end Sys2Proof.Machine
end

