-- ==== Sys2Proof/Machine/HostProgram.lean ====
section
/-! DEFINITION. Host programs (30_encoding.md R67) and the pseudo-instructions (R68): a notation for what a host drives, one
line per rising edge. Block literals are of type Block, so a literal has 12 words of 32 bits (60_exceptions.md R221). -/

namespace Sys2Proof.Machine

/-- A line of a host program (R67). -/
inductive Line where
  | rst
  | nop
  | enc (block key : Block)
  | dec (block key : Block)
  | ill
  /-- `RST <line>`: `rst = 1` with what `line` drives. -/
  | rstWith (line : Line)
deriving DecidableEq, Repr

/-- The value `{rst, cmd[1:0]}` that a line drives, its encoding column in R67. -/
def Line.word (l : Line) : BitVec 3 :=
  match l with
  | .rst => 0b100
  | .nop => 0b000
  | .enc _ _ => 0b001
  | .dec _ _ => 0b010
  | .ill => 0b011
  | .rstWith l => 0b100 ||| l.word

/-- The data operands that a line drives; none where it leaves them unspecified (R67). -/
def Line.operands (l : Line) : Option (Block × Block) :=
  match l with
  | .rst => none
  | .nop => none
  | .enc b k => some (b, k)
  | .dec b k => some (b, k)
  | .ill => none
  | .rstWith l => l.operands

/-- The port values `p` are what the line drives. A line without operands leaves the data ports unspecified: any values are its
(R67). -/
def Line.drives (l : Line) (p : Inputs) : Bool :=
  hostWord p == l.word &&
    match l.operands with
    | none => true
    | some (b, k) => p.blockIn == pack b && p.keyIn == pack k

/-- The port values of a line, its unspecified data ports holding `blockIn` and `keyIn`. -/
def Line.drive (blockIn keyIn : PortWord) (l : Line) : Inputs :=
  { rst := l.word.getLsbD 2
    cmd := l.word.extractLsb' 0 2
    blockIn := (l.operands.map fun o => pack o.1).getD blockIn
    keyIn := (l.operands.map fun o => pack o.2).getD keyIn }

/-- A statement of a host program: a line or a pseudo-instruction (R68). -/
inductive Stmt where
  | line (l : Line)
  | wait (n : Nat)
  | encrypt (block key : Block)
  | decrypt (block key : Block)
deriving DecidableEq, Repr

/-- The expansion of a statement (R68). -/
def Stmt.expand (t : Stmt) : List Line :=
  match t with
  | .line l => [l]
  | .wait n => List.replicate n .nop
  | .encrypt b k => .enc b k :: List.replicate 12 .nop
  | .decrypt b k => .dec b k :: List.replicate 12 .nop

/-- The lines of a host program, one per rising edge. -/
def programLines (p : List Stmt) : List Line := p.flatMap Stmt.expand

/-- What a host drives is what a program says: one entry per line, in order. -/
def drivesAll (ls : List Line) (ps : List Inputs) : Bool :=
  match ls, ps with
  | [], [] => true
  | l :: ls, p :: ps => l.drives p && drivesAll ls ps
  | [], _ :: _ => false
  | _ :: _, [] => false

/-- Hand the machine a host program: its first line on the ports for the coming edge, the rest after it. The data ports that a
line leaves unspecified hold `blockIn` and `keyIn`. -/
def load (blockIn keyIn : PortWord) (p : List Stmt) (s : State) : State :=
  match (programLines p).map (Line.drive blockIn keyIn) with
  | [] => s
  | i :: is => { s with ports := i, lines := is }

end Sys2Proof.Machine
end

