-- ==== Sys2Proof/WellFormed.lean ====
section
/-! DEFINITION. Well-formedness. An instruction's fields are bit vectors of the encoding's own widths, so every instruction is
well formed by its type. A host-program line can be ill formed: 30_encoding.md R67 allows `RST <line>` only with NOP, ENC, DEC
or ILL. -/

namespace Sys2Proof

/-- Every row with every value of its free bits is well formed: the widths are in the types (30_encoding.md R60, R63, R67). -/
def Instr.wf (i : Instr) : Bool :=
  match i with
  | .nop | .enc | .dec | .rsvd => true
  | .noCmd | .collideEnc | .collideDec | .collideRsvd => true
  | .idle _ | .runEnc | .runDec | .finEnc | .finDec | .unreachable _ => true
  | .rst _ => true

/-- The lines that may stand after `RST` in `RST <line>` (R67). -/
def Machine.Line.plain (l : Machine.Line) : Bool :=
  match l with
  | .nop | .enc _ _ | .dec _ _ | .ill => true
  | .rst | .rstWith _ => false

/-- A line is well formed: `RST <line>` holds one of NOP, ENC, DEC, ILL (R67). -/
def Machine.Line.wf (l : Machine.Line) : Bool :=
  match l with
  | .rst | .nop | .enc _ _ | .dec _ _ | .ill => true
  | .rstWith l => l.plain

/-- A host program is well formed when each of its lines is. -/
def wfProgram (p : List Machine.Stmt) : Bool := (Machine.programLines p).all Machine.Line.wf

end Sys2Proof
end

