-- ==== Sys2Proof/Safety.lean ====
section
/-! DEFINITION. Runs, the invariant of the states reachable from reset (10_state.md R32), and what the host must respect
(70_reset_and_hazards.md). The terms in which statements are made. -/

namespace Sys2Proof.Machine

/-- `n` rising edges. -/
def run : Nat → State → Result
  | 0, s => .next s
  | n + 1, s =>
    match step s with
    | .next t => run n t
    | .fault f => .fault f
    | .refused r => .refused r

/-- The code of `fsm` at a legal position (R24). -/
def SeqPos.fsm (p : SeqPos) : Fsm :=
  match p with
  | .idle => .idle
  | .run _ => .run
  | .fin => .fin

/-- The value of `rnd` at a legal position (R25): 0 in IDLE, the round index in RUN, 11 in FIN. -/
def SeqPos.rnd (p : SeqPos) : BitVec 4 :=
  match p with
  | .idle => 0
  | .run r => BitVec.ofNat 4 r.val
  | .fin => 11

/-- The coming edge has `rst = 0` and finds the sequencer at the position `p`. -/
abbrev atPos (p : SeqPos) (s : State) : Prop := s.ports.rst = false ∧ s.fsm = p.fsm ∧ s.rnd = p.rnd

/-- The four kinds of state that R172 lists as unreachable. -/
abbrev unreachableSeq (s : State) : Prop :=
  s.fsm = .code11 ∨ (s.fsm = .run ∧ 10 < s.rnd.toNat) ∨ (s.fsm = .fin ∧ s.rnd ≠ 11) ∨ (s.fsm = .idle ∧ s.rnd ≠ 0)

/-- The value of `cmd` that asks for a run in direction `m` (R60). -/
def Mode.command (m : Mode) : BitVec 2 :=
  match m with
  | .enc => 0b01
  | .dec => 0b10

/-- The coming edge is an acceptance edge for the direction `m` (R191, R192). -/
abbrev accepts (m : Mode) (s : State) : Prop := atPos .idle s ∧ s.ports.cmd = m.command

/-- What 10_state.md R32 says of every state reachable from reset. -/
abbrev SeqInv (s : State) : Prop :=
  (s.fsm = .idle → s.rnd = 0) ∧
  (s.fsm = .run → s.rnd.toNat ≤ 10) ∧
  (s.fsm = .fin → s.rnd = 11) ∧
  s.fsm ≠ .code11 ∧
  (s.done = true → s.fsm = .idle) ∧
  (busy s = true ↔ s.fsm = .run ∨ s.fsm = .fin)

/-- The two states agree in every register and in the ROM; the host may drive them differently. -/
abbrev sameRegs (s t : State) : Prop :=
  s.S = t.S ∧ s.K = t.K ∧ s.mode = t.mode ∧ s.rnd = t.rnd ∧ s.fsm = t.fsm ∧ s.done = t.done ∧ s.err = t.err ∧ s.rom = t.rom

/-- The register values of a reset edge (R251). -/
abbrev resetValues (s : State) : Prop :=
  s.S = Block.zero ∧ s.K = Block.zero ∧ s.mode = .enc ∧ s.rnd = 0 ∧ s.fsm = .idle ∧ s.done = false ∧ s.err = false

/-- The next `n` edges after the coming one are driven by the host's lines, with `rst = 0` at each (R173). -/
abbrev noResetFor (n : Nat) (s : State) : Prop := n ≤ s.lines.length ∧ ∀ l ∈ s.lines.take n, l.rst = false

/-- The host respects R258 and I7 at the coming edge: no command while busy, and never the reserved one. -/
abbrev wellBehaved (s : State) : Prop := s.ports.cmd ≠ 0b11 ∧ (busy s = true → s.ports.cmd = 0)

/-- The host may take `block_out` for the result of the last run (R257). -/
abbrev resultReady (s : State) : Prop := s.done = true

/-- How many words of a Block are nonzero (R112). -/
def wordWeight (b : Block) : Nat := ((List.finRange 12).filter fun i => b.get i != 0).length

end Sys2Proof.Machine
end

