-- ==== Sys2Proof/Certificates/Slice0/Obligations.lean ====
section
/-! DEFINITION. The statements for the provers, from the numbered rules of spec/. A statement about all states holds for every
round-constant ROM, since the ROM is a field of the state. -/

open Sys2Proof Sys2Proof.Machine

/-! ### Encoding -/

/-- 30_encoding.md R60, R61, R63, R67: in each encoding space of the opcode table a byte decodes to a row exactly when it is that
row's encoding in that space. -/
def Obligations.DecodeAndEncodeAgree : Prop :=
  ∀ (sp : Space) (b : BitVec 8) (i : Instr), i.wf = true → (decode sp b = .ok i ↔ encode i = (sp, b))

/-- R60, R63, R67: words written out from the encoding columns. -/
def Obligations.WrittenOutWordsDecode : Prop :=
  decode .cmdIdle 0b00000001 = .ok .enc ∧ decode .cmdIdle 0b00000010 = .ok .dec ∧
  decode .cmdBusy 0b00000011 = .ok .collideRsvd ∧ decode .seq 0b00000010 = .ok .runEnc ∧
  decode .seq 0b00000101 = .ok .finDec ∧ decode .host 0b00000110 = .ok (.rst 0b10)

/-- R61: the meaning of `cmd` is a function of `fsm` and `cmd` alone. -/
def Obligations.CommandRowOfAnEdge : Prop :=
  ∀ s : State, s.ports.rst = false →
    (s.fsm = .idle →
      (s.ports.cmd = 0b00 → decodeEdge (edgeWord s) = .nop) ∧
      (s.ports.cmd = 0b01 → decodeEdge (edgeWord s) = .enc) ∧
      (s.ports.cmd = 0b10 → decodeEdge (edgeWord s) = .dec) ∧
      (s.ports.cmd = 0b11 → decodeEdge (edgeWord s) = .rsvd)) ∧
    (s.fsm = .run ∨ s.fsm = .fin →
      (s.ports.cmd = 0b00 → decodeEdge (edgeWord s) = .noCmd) ∧
      (s.ports.cmd = 0b01 → decodeEdge (edgeWord s) = .collideEnc) ∧
      (s.ports.cmd = 0b10 → decodeEdge (edgeWord s) = .collideDec) ∧
      (s.ports.cmd = 0b11 → decodeEdge (edgeWord s) = .collideRsvd))

/-- R63: the sequencer step of an edge is selected by `{fsm[1:0], mode}`. -/
def Obligations.SequencerRowOfAnEdge : Prop :=
  ∀ s : State,
    (s.fsm = .idle → decodeEdgeSeq (edgeWord s) = .idle s.mode.bit) ∧
    (s.fsm = .run → s.mode = .enc → decodeEdgeSeq (edgeWord s) = .runEnc) ∧
    (s.fsm = .run → s.mode = .dec → decodeEdgeSeq (edgeWord s) = .runDec) ∧
    (s.fsm = .fin → s.mode = .enc → decodeEdgeSeq (edgeWord s) = .finEnc) ∧
    (s.fsm = .fin → s.mode = .dec → decodeEdgeSeq (edgeWord s) = .finDec) ∧
    (s.fsm = .code11 → decodeEdgeSeq (edgeWord s) = .unreachable s.mode.bit)

/-! ### The step -/

/-- Log entry 6, the model's choice: `exec` refuses a row at an edge that the row's context in the opcode table excludes (`rst` = 1,
or another sequencer state, or another `mode`); `step` never asks for such a row and so never refuses. -/
def Obligations.RowsOutsideTheirContextAreRefused : Prop :=
  (∀ (s : State) (r : Refusal), step s ≠ .refused r) ∧
  (∀ (s : State) (i : Instr), s.ports.rst = true → (∀ cc, i ≠ .rst cc) → (∀ m, i ≠ .unreachable m) →
    exec i s = .refused .outOfContext) ∧
  (∀ (s : State) (i : Instr) (p : SeqPos), p ≠ .idle → atPos p s →
    (i ∈ [Instr.nop, .enc, .dec, .rsvd] ∨ ∃ m, i = .idle m) → exec i s = .refused .outOfContext) ∧
  (∀ (s : State) (i : Instr), atPos .idle s →
    i ∈ [Instr.noCmd, .collideEnc, .collideDec, .collideRsvd, .runEnc, .runDec, .finEnc, .finDec] →
    exec i s = .refused .outOfContext) ∧
  (∀ (s : State) (r : Fin 11), atPos (.run r) s →
    exec .finEnc s = .refused .outOfContext ∧ exec .finDec s = .refused .outOfContext ∧
    (s.mode = .dec → exec .runEnc s = .refused .outOfContext) ∧
    (s.mode = .enc → exec .runDec s = .refused .outOfContext)) ∧
  (∀ s : State, atPos .fin s →
    exec .runEnc s = .refused .outOfContext ∧ exec .runDec s = .refused .outOfContext ∧
    (s.mode = .dec → exec .finEnc s = .refused .outOfContext) ∧
    (s.mode = .enc → exec .finDec s = .refused .outOfContext))

/-- A step runs the row that the edge's bits decode to, and then the host drives its next line: the ports take the next entry of
`lines`, or `rst = 0`, `cmd = 00` when there is none (the model's choice, log entries 3 and 5). -/
def Obligations.StepRunsTheDecodedRow : Prop :=
  ∀ (s : State) (i : Instr), decodeEdge (edgeWord s) = i → i.wf = true →
    (∀ t, exec i s = .next t →
      step s = .next { t with
        ports := match t.lines with
          | [] => { t.ports with rst := false, cmd := 0 }
          | l :: _ => l
        lines := t.lines.tail }) ∧
    (∀ f, exec i s = .fault f → step s = .fault f) ∧
    (∀ r, exec i s = .refused r → step s = .refused r)

/-- The command row and the sequencer row of one edge with `rst = 0` (R60, R63, R226) have the same outcome, so a step runs the
sequencer row of its edge as well. That each row means the WHOLE edge is the model's own reading (log entry 5). In the
unreachable sequencer states, to which R172 gives no behaviour, the common outcome is the fault of log entry 7, the model's
choice. -/
def Obligations.CommandAndSequencerRowsAgree : Prop :=
  ∀ s : State, s.ports.rst = false → exec (decodeEdge (edgeWord s)) s = exec (decodeEdgeSeq (edgeWord s)) s

/-- R171: in every register the machine made of the opcode table's rows computes `next`, the whole step function as the rule
writes it, from every legal sequencer state and, at an edge with `rst = 1`, from every state. -/
def Obligations.StepIsTheNextFunction : Prop :=
  ∀ (s : State) (p : SeqPos), (s.fsm = p.fsm ∧ s.rnd = p.rnd) ∨ s.ports.rst = true →
    ∃ t, step s = .next t ∧ sameRegs t (nextFunction p s s.ports)

/-! ### Reset -/

/-- R250, R251: the row RST, from any state and with any `cmd`, sets every register to its reset value and completes; it leaves the
ROM and what the host drives alone. -/
def Obligations.ResetRowSetsEveryRegister : Prop :=
  resetValues State.reset ∧ outputs State.reset = ⟨0, false, false, false⟩ ∧
  ∀ (s : State) (cc : BitVec 2), ∃ t, exec (.rst cc) s = .next t ∧ resetValues t ∧ outputs t = ⟨0, false, false, false⟩ ∧
    t.rom = s.rom ∧ t.ports = s.ports ∧ t.lines = s.lines

/-- R250: an edge with `rst = 1` is a reset edge whatever the state (a run in progress, an unreachable state, a power-up state) and
whatever `cmd`, `block_in` and `key_in` are. -/
def Obligations.ResetEdgeFromEveryState : Prop :=
  ∀ s : State, s.ports.rst = true → ∃ t, step s = .next t ∧ resetValues t ∧ outputs t = ⟨0, false, false, false⟩ ∧ t.rom = s.rom

/-- R262: a reset edge ends a run at once, and a command at the next edge starts a fresh run. -/
def Obligations.ResetEndsARunAndTheNextCommandStartsAFreshOne : Prop :=
  ∀ (s : State) (l : Inputs) (ls : List Inputs) (m : Mode),
    s.ports.rst = true → s.lines = l :: ls → l.rst = false → l.cmd = m.command →
    (∃ t, step s = .next t ∧ t.done = false ∧ blockOut t = 0 ∧ busy t = false) ∧
    (∃ u, run 2 s = .next u ∧ u.fsm = .run ∧ u.rnd = 0 ∧ u.mode = m ∧ u.S = unpack l.blockIn ∧
      u.K = workingKey m (unpack l.keyIn) ∧ u.done = false ∧ u.err = false)

/-! ### The commands in IDLE: NOP, ENC, DEC, RSVD, and the sequencer row IDLE -/

/-- R190: NOP in IDLE completes and changes no register; in RUN and FIN `cmd = 00` (the row NONE) completes, lets the sequencer
step run (R166 to R169) and touches neither `err` nor anything else. -/
def Obligations.NopChangesNothingAndLetsARunGoOn : Prop :=
  ∀ s : State,
    (atPos .idle s → exec .nop s = .next s) ∧
    (∀ r : Fin 11, atPos (.run r) s → exec .noCmd s = .next
      { s with S := mainRound s.rom s.mode s.S s.K r,
               rnd := if r = 10 then 11 else BitVec.ofNat 4 (r.val + 1),
               fsm := if r = 10 then .fin else .run }) ∧
    (atPos .fin s → exec .noCmd s = .next
      { s with S := finalTransform s.rom s.mode s.S s.K, rnd := 0, fsm := .idle, done := true })

/-- R191: ENC in IDLE. Everything the rule does not name (the ROM, the ports) is unchanged. -/
def Obligations.EncAcceptsAnEncryption : Prop :=
  ∀ s : State, atPos .idle s →
    ∃ t, exec .enc s = .next t ∧ busy t = true ∧
      t = { s with S := unpack s.ports.blockIn, K := unpack s.ports.keyIn,
                   mode := .enc, rnd := 0, fsm := .run, done := false, err := false }

/-- R192: DEC in IDLE. `K` takes the inverted key. -/
def Obligations.DecAcceptsADecryption : Prop :=
  ∀ s : State, atPos .idle s →
    ∃ t, exec .dec s = .next t ∧ busy t = true ∧
      t = { s with S := unpack s.ports.blockIn, K := reverse (diffuse (unpack s.ports.keyIn)),
                   mode := .dec, rnd := 0, fsm := .run, done := false, err := false }

/-- R193: the reserved command in IDLE sets `err` and nothing else. -/
def Obligations.ReservedCommandSetsOnlyErr : Prop :=
  ∀ s : State, atPos .idle s → exec .rsvd s = .next { s with err := true }

/-- R170: the sequencer row IDLE performs the command on `cmd`. -/
def Obligations.IdleRowPerformsTheCommand : Prop :=
  ∀ (s : State) (m : BitVec 1), atPos .idle s →
    (s.ports.cmd = 0b00 → exec (.idle m) s = .next s) ∧
    (s.ports.cmd = 0b01 → exec (.idle m) s = .next
      { s with S := unpack s.ports.blockIn, K := unpack s.ports.keyIn,
               mode := .enc, rnd := 0, fsm := .run, done := false, err := false }) ∧
    (s.ports.cmd = 0b10 → exec (.idle m) s = .next
      { s with S := unpack s.ports.blockIn, K := keyInvert (unpack s.ports.keyIn),
               mode := .dec, rnd := 0, fsm := .run, done := false, err := false }) ∧
    (s.ports.cmd = 0b11 → exec (.idle m) s = .next { s with err := true })

/-! ### Edges of a run -/

/-- R166, R167: RUN_ENC and RUN_DEC. `S` takes one round; after round 10 the sequencer enters FIN with `rnd` = 11; a command other
than 00 sets `err`; nothing else changes. -/
def Obligations.RunRowsComputeOneRound : Prop :=
  ∀ (s : State) (r : Fin 11), atPos (.run r) s →
    (s.mode = .enc → exec .runEnc s = .next
      { s with S := lateShift (substitute (earlyShift (diffuse (injectEnc s.rom s.S s.K r.castSucc)))),
               rnd := if r = 10 then 11 else BitVec.ofNat 4 (r.val + 1),
               fsm := if r = 10 then .fin else .run,
               err := if s.ports.cmd ≠ 0 then true else s.err }) ∧
    (s.mode = .dec → exec .runDec s = .next
      { s with S := lateShift (substitute (earlyShift (diffuse (injectDec s.rom s.S s.K r.castSucc)))),
               rnd := if r = 10 then 11 else BitVec.ofNat 4 (r.val + 1),
               fsm := if r = 10 then .fin else .run,
               err := if s.ports.cmd ≠ 0 then true else s.err })

/-- R168, R169: FIN_ENC and FIN_DEC. `S` takes the final transform, `done` is set, the sequencer returns to IDLE with `rnd` = 0; a
command other than 00 sets `err`; `mode` and everything else keep their values. -/
def Obligations.FinRowsComputeTheFinalTransform : Prop :=
  ∀ s : State, atPos .fin s →
    (s.mode = .enc → exec .finEnc s = .next
      { s with S := reverse (diffuse (injectEnc s.rom s.S s.K 11)), rnd := 0, fsm := .idle, done := true,
               err := if s.ports.cmd ≠ 0 then true else s.err }) ∧
    (s.mode = .dec → exec .finDec s = .next
      { s with S := reverse (diffuse (injectDec s.rom s.S s.K 11)), rnd := 0, fsm := .idle, done := true,
               err := if s.ports.cmd ≠ 0 then true else s.err })

/-- R194: a command while busy. The edge does what it does without the command, and `err` is set besides. -/
def Obligations.CollisionSetsErrAndTheRunContinues : Prop :=
  ∀ (s : State) (i : Instr), i = .collideEnc ∨ i = .collideDec ∨ i = .collideRsvd →
    (∀ r : Fin 11, atPos (.run r) s → exec i s = .next
      { s with S := mainRound s.rom s.mode s.S s.K r,
               rnd := if r = 10 then 11 else BitVec.ofNat 4 (r.val + 1),
               fsm := if r = 10 then .fin else .run,
               err := true }) ∧
    (atPos .fin s → exec i s = .next
      { s with S := finalTransform s.rom s.mode s.S s.K, rnd := 0, fsm := .idle, done := true, err := true })

/-! ### Unreachable sequencer states -/

/-- The row UNREACHABLE answers the fault in EVERY state: the model's choice (log entry 7). R172 asks for a fault only where the
sequencer is in an unreachable state, and `step` decodes the row only there (`fsm` = 11, `rst = 0`). -/
def Obligations.UnreachableRowFaults : Prop :=
  ∀ (s : State) (m : BitVec 1), exec (.unreachable m) s = .fault .unreachableSequencer

/-- R172 and R32: the state after reset is no unreachable sequencer state, and at an edge with `rst = 0` a step from any state that
is none answers a next state that is none, so no edge enters one. That the fault is raised by an edge with `rst = 0` FROM an
unreachable state that `State` holds is the model's choice (log entry 7): R172 makes ENTERING such a state a fault. -/
def Obligations.StepFaultsExactlyInUnreachableStates : Prop :=
  ¬ unreachableSeq State.reset ∧ ∀ s : State, s.ports.rst = false →
    (unreachableSeq s → step s = .fault .unreachableSequencer) ∧
    (¬ unreachableSeq s → ∃ t, step s = .next t ∧ ¬ unreachableSeq t)

/-! ### Invariants -/

/-- R32: every step keeps what the rule says of every reachable state. -/
def Obligations.EveryStepKeepsTheSequencerInvariant : Prop :=
  ∀ s t : State, SeqInv s → step s = .next t → SeqInv t

/-- R32: it holds after reset, and after a reset edge from any state. -/
def Obligations.ResetMeetsTheSequencerInvariant : Prop :=
  SeqInv State.reset ∧ ∀ s t : State, s.ports.rst = true → step s = .next t → SeqInv t

/-- R32: from the state after reset, whatever a host drives at however many edges, the machine never stops and every state it
reaches meets R32. -/
def Obligations.NoHostCanStopTheCore : Prop :=
  ∀ (p : Inputs) (ls : List Inputs) (n : Nat), n ≤ ls.length + 1 →
    ∃ t, run n { State.reset with ports := p, lines := ls } = .next t ∧ SeqInv t

/-- R6, R41: no edge writes the round-constant ROM. -/
def Obligations.NoStepWritesTheRom : Prop :=
  ∀ s t : State, step s = .next t → t.rom = s.rom

/-! ### Status bits -/

/-- R27: the three ways an edge sets `done`, and reset. -/
def Obligations.DoneChangesOnlyAtFinAcceptanceAndReset : Prop :=
  ∀ s t : State, step s = .next t →
    (outputs t).done = t.done ∧
    (s.ports.rst = true → t.done = false) ∧
    (s.ports.rst = false →
      (s.fsm = .fin → t.done = true) ∧
      (s.fsm = .idle → (s.ports.cmd = 0b01 ∨ s.ports.cmd = 0b10) → t.done = false) ∧
      (s.fsm = .run → t.done = s.done) ∧
      (s.fsm = .idle → (s.ports.cmd = 0b00 ∨ s.ports.cmd = 0b11) → t.done = s.done))

/-- R28: the three ways an edge sets `err`, and reset. -/
def Obligations.ErrChangesOnlyByErrorAcceptanceAndReset : Prop :=
  ∀ s t : State, step s = .next t →
    (outputs t).err = t.err ∧
    (s.ports.rst = true → t.err = false) ∧
    (s.ports.rst = false →
      (s.fsm = .idle → s.ports.cmd = 0b11 → t.err = true) ∧
      (s.fsm = .run ∨ s.fsm = .fin → s.ports.cmd ≠ 0b00 → t.err = true) ∧
      (s.fsm = .idle → (s.ports.cmd = 0b01 ∨ s.ports.cmd = 0b10) → t.err = false) ∧
      (s.ports.cmd = 0b00 → t.err = s.err))

/-- R224: once set, `err` is cleared by an acceptance edge and by a reset edge and by nothing else. -/
def Obligations.ErrIsStickyUntilAcceptanceOrReset : Prop :=
  ∀ s t : State, step s = .next t → s.err = true →
    (t.err = false ↔ s.ports.rst = true ∨ ∃ m, accepts m s)

/-- R223: at an edge with an error condition every register but `err` takes the value it would take with `cmd = 00`. -/
def Obligations.AnErrorMutatesNothingButErr : Prop :=
  ∀ s : State, s.ports.rst = false → ¬ unreachableSeq s →
    (s.fsm = .idle ∧ s.ports.cmd = 0b11 ∨ s.fsm ≠ .idle ∧ s.ports.cmd ≠ 0b00) →
    ∃ t u, step s = .next t ∧ step { s with ports := { s.ports with cmd := 0b00 } } = .next u ∧
      t.err = true ∧ t.S = u.S ∧ t.K = u.K ∧ t.mode = u.mode ∧ t.rnd = u.rnd ∧ t.fsm = u.fsm ∧ t.done = u.done

/-- R258 and I7: a host that never commands while busy and never drives the reserved command never sees `err` rise. -/
def Obligations.AWellBehavedHostNeverRaisesErr : Prop :=
  ∀ s : State, SeqInv s → wellBehaved s → s.err = false → ∃ t, step s = .next t ∧ t.err = false

/-! ### Isolation -/

/-- R21, R26: `K` and `mode` change at an acceptance edge and at a reset edge only. -/
def Obligations.KeyAndModeChangeOnlyAtAcceptanceAndReset : Prop :=
  ∀ s t : State, step s = .next t →
    (∀ m, accepts m s → t.K = workingKey m (unpack s.ports.keyIn) ∧ t.mode = m) ∧
    (s.ports.rst = false → (∀ m, ¬ accepts m s) → t.K = s.K ∧ t.mode = s.mode)

/-- R46: the data ports matter only at an acceptance edge; at any other edge changing them changes no register. -/
def Obligations.DataPortsMatterOnlyAtAcceptance : Prop :=
  ∀ (s t : State) (b k : PortWord), (∀ m, ¬ accepts m s) → step s = .next t →
    ∃ u, step { s with ports := { s.ports with blockIn := b, keyIn := k } } = .next u ∧ sameRegs t u

/-- R21: after a run `K` is never observable. Two states in IDLE that differ only in `K` and `mode` show the same output ports after
every later edge, whatever the host drives. -/
def Obligations.AnOldKeyNeverReachesTheOutputs : Prop :=
  ∀ (s : State) (k : Block) (m : Mode) (n : Nat), s.fsm = .idle → s.rnd = 0 →
    n ≤ s.lines.length + 1 →
    ∃ t u, run n s = .next t ∧ run n { s with K := k, mode := m } = .next u ∧ outputs t = outputs u

/-- R35: a run's result depends only on the command, `block_in` and `key_in` of its acceptance edge: nothing that an earlier run left
in the registers and no command during the run changes it. -/
def Obligations.AResultDependsOnlyOnTheAcceptedInputs : Prop :=
  ∀ (m : Mode) (s₁ s₂ : State), accepts m s₁ → accepts m s₂ →
    s₁.ports.blockIn = s₂.ports.blockIn → s₁.ports.keyIn = s₂.ports.keyIn → s₁.rom = s₂.rom →
    noResetFor 12 s₁ → noResetFor 12 s₂ →
    ∃ t₁ t₂, run 13 s₁ = .next t₁ ∧ run 13 s₂ = .next t₂ ∧
      t₁.done = true ∧ t₂.done = true ∧ blockOut t₁ = blockOut t₂

/-! ### Runs -/

/-- R173, R260: from an acceptance edge on, with `rst = 0` at the next 12 edges and any commands, the run takes its fixed time and
ends with the result. `run (j + 1)` is the state after edge `t0 + j`. -/
def Obligations.ARunComputesTheCipher : Prop :=
  ∀ (m : Mode) (s : State), accepts m s → noResetFor 12 s →
    (∀ j : Nat, j ≤ 11 → ∃ t, run (j + 1) s = .next t ∧
      t.fsm = (if j = 11 then .fin else .run) ∧ t.rnd = BitVec.ofNat 4 j ∧ busy t = true ∧ t.done = false ∧
      t.S = afterRounds s.rom m (unpack s.ports.blockIn) (workingKey m (unpack s.ports.keyIn)) j) ∧
    (∃ t, run 13 s = .next t ∧ t.fsm = .idle ∧ t.rnd = 0 ∧ busy t = false ∧ t.done = true ∧
      t.S = cipher s.rom m (unpack s.ports.blockIn) (workingKey m (unpack s.ports.keyIn)))

/-- R68, R195: the pseudo-instructions, driven by a host while the core is in IDLE. -/
def Obligations.PseudoInstructionsDoWhatTheySay : Prop :=
  ∀ s : State, s.fsm = .idle → s.rnd = 0 →
    (∀ n : Nat, drivesAll (Stmt.expand (.wait n)) ((s.ports :: s.lines).take n) = true →
      ∃ t, run n s = .next t ∧ sameRegs s t) ∧
    (∀ b k : Block, drivesAll (Stmt.expand (.encrypt b k)) ((s.ports :: s.lines).take 13) = true →
      ∃ t, run 13 s = .next t ∧ t.done = true ∧ blockOut t = pack (cipher s.rom .enc b k)) ∧
    (∀ b k : Block, drivesAll (Stmt.expand (.decrypt b k)) ((s.ports :: s.lines).take 13) = true →
      ∃ t, run 13 s = .next t ∧ t.done = true ∧ blockOut t = pack (cipher s.rom .dec b (keyInvert k)))

/-- R183, R195 at the ports: a host that encrypts a Block and then decrypts what the core computed, with the same key, reads the
Block again 26 edges after it began. -/
def Obligations.EncryptThenDecryptAtThePorts : Prop :=
  ∀ (s : State) (b k : Block), s.fsm = .idle → s.rnd = 0 →
    drivesAll (programLines [.encrypt b k, .decrypt (encrypt s.rom b k) k]) ((s.ports :: s.lines).take 26) = true →
    ∃ t, run 26 s = .next t ∧ t.done = true ∧ blockOut t = pack b

/-- R259: commands are levels. A host that holds a command for `j + 1` edges (`j` from 1 to 12, with no reset) starts a run at the
first of them and collides at each later one; if it holds it for 14 edges, the first edge after FIN starts a second run. -/
def Obligations.AHeldCommandStartsASecondRun : Prop :=
  ∀ (m : Mode) (s : State), accepts m s → noResetFor 12 s →
    (∃ t, run 1 s = .next t ∧ t.fsm = .run ∧ t.rnd = 0 ∧ t.err = false) ∧
    (∀ j : Nat, 1 ≤ j → j ≤ 12 → (∀ l ∈ s.lines.take j, l.cmd = m.command) → ∃ t, run (j + 1) s = .next t ∧ t.err = true) ∧
    (noResetFor 13 s → (∀ l ∈ s.lines.take 13, l.cmd = m.command) →
      ∃ t, run 14 s = .next t ∧ t.fsm = .run ∧ t.rnd = 0 ∧ t.done = false ∧ t.err = false)

/-! ### The datapath -/

/-- R100, R101: the two rotations bit by bit, for every amount; a reduced amount of 0 returns the word. -/
def Obligations.RotationsMoveEveryBit : Prop :=
  ∀ (x : Word) (a : Nat),
    (∀ j : Nat, j < 32 → (rotl32 x a).getLsbD ((j + a % 32) % 32) = x.getLsbD j) ∧
    (∀ j : Nat, j < 32 → (rotr32 x a).getLsbD j = x.getLsbD ((j + a % 32) % 32)) ∧
    (a % 32 = 0 → rotl32 x a = x ∧ rotr32 x a = x) ∧
    rotl32 0 a = 0 ∧ rotr32 0 a = 0 ∧ rotl32 0xFFFFFFFF a = 0xFFFFFFFF ∧ rotr32 0xFFFFFFFF a = 0xFFFFFFFF

/-- R102: the inverse law, for every amount. -/
def Obligations.RightRotationUndoesLeft : Prop :=
  ∀ (x : Word) (r : Nat), rotr32 (rotl32 x r) r = x

/-- R110: the expanded table. -/
def Obligations.DiffuseIsTheSevenWordXor : Prop :=
  ∀ b : Block, diffuse b =
    ⟨b.w0 ^^^ b.w2 ^^^ b.w6 ^^^ b.w7 ^^^ b.w9 ^^^ b.w10 ^^^ b.w11,
     b.w0 ^^^ b.w1 ^^^ b.w3 ^^^ b.w7 ^^^ b.w8 ^^^ b.w10 ^^^ b.w11,
     b.w0 ^^^ b.w1 ^^^ b.w2 ^^^ b.w4 ^^^ b.w8 ^^^ b.w9 ^^^ b.w11,
     b.w0 ^^^ b.w1 ^^^ b.w2 ^^^ b.w3 ^^^ b.w5 ^^^ b.w9 ^^^ b.w10,
     b.w1 ^^^ b.w2 ^^^ b.w3 ^^^ b.w4 ^^^ b.w6 ^^^ b.w10 ^^^ b.w11,
     b.w0 ^^^ b.w2 ^^^ b.w3 ^^^ b.w4 ^^^ b.w5 ^^^ b.w7 ^^^ b.w11,
     b.w0 ^^^ b.w1 ^^^ b.w3 ^^^ b.w4 ^^^ b.w5 ^^^ b.w6 ^^^ b.w8,
     b.w1 ^^^ b.w2 ^^^ b.w4 ^^^ b.w5 ^^^ b.w6 ^^^ b.w7 ^^^ b.w9,
     b.w2 ^^^ b.w3 ^^^ b.w5 ^^^ b.w6 ^^^ b.w7 ^^^ b.w8 ^^^ b.w10,
     b.w3 ^^^ b.w4 ^^^ b.w6 ^^^ b.w7 ^^^ b.w8 ^^^ b.w9 ^^^ b.w11,
     b.w0 ^^^ b.w4 ^^^ b.w5 ^^^ b.w7 ^^^ b.w8 ^^^ b.w9 ^^^ b.w10,
     b.w1 ^^^ b.w5 ^^^ b.w6 ^^^ b.w8 ^^^ b.w9 ^^^ b.w10 ^^^ b.w11⟩

/-- R111: the diffusion is linear over XOR, and acts on each bit position independently and identically. -/
def Obligations.DiffuseIsLinearAndBitwise : Prop :=
  (∀ a b : Block, diffuse (xorBlock a b) = xorBlock (diffuse a) (diffuse b)) ∧
  (∀ (a b : Block) (j k : Nat), j < 32 → k < 32 →
    (∀ i, (a.get i).getLsbD j = (b.get i).getLsbD k) →
    ∀ i, ((diffuse a).get i).getLsbD j = ((diffuse b).get i).getLsbD k)

/-- R112: the branch number is 8, and a difference in one word changes exactly 7 output words. -/
def Obligations.DiffuseHasBranchNumberEight : Prop :=
  (∀ b : Block, b ≠ Block.zero → 8 ≤ wordWeight b + wordWeight (diffuse b)) ∧
  (∀ (i : Fin 12) (x : Word), x ≠ 0 →
    wordWeight (Block.single i x) = 1 ∧ wordWeight (diffuse (Block.single i x)) = 7)

/-- R113: the diffusion is a bijection with the inverse the rule gives. -/
def Obligations.DiffuseIsABijection : Prop :=
  ∀ b : Block, diffuseInv (diffuse b) = b ∧ diffuse (diffuseInv b) = b ∧
    diffuseInv b = reverse (diffuse (reverse b)) ∧ reverse (diffuse (reverse (diffuse b))) = b

/-- R120, R121: the two shift passes bit by bit, each word by its own amount; word 0 of the first and word 11 of the second pass
unchanged. -/
def Obligations.ShiftPassesMoveEveryBit : Prop :=
  ∀ (b : Block) (i : Fin 12) (j : Nat), j < 32 →
    ((earlyShift b).get i).getLsbD ((j + [0, 1, 3, 6, 10, 15, 21, 28, 4, 13, 23, 2].getD i.val 0) % 32) = (b.get i).getLsbD j ∧
    ((lateShift b).get i).getLsbD j = (b.get i).getLsbD ((j + [2, 23, 13, 4, 28, 21, 15, 10, 6, 3, 1, 0].getD i.val 0) % 32) ∧
    (earlyShift b).get 0 = b.get 0 ∧ (lateShift b).get 11 = b.get 11

/-- R122: the late pass is not the inverse of the early one, but is so up to reversal. -/
def Obligations.ShiftPassesInvertUpToReversal : Prop :=
  (∀ b : Block, earlyShift (reverse (lateShift b)) = reverse b ∧ lateShift (reverse (earlyShift b)) = reverse b) ∧
  (lateShift (earlyShift (Block.fill 1))).get 0 ≠ (Block.fill 1).get 0

/-- R130, R131: the substitution word by word from one snapshot; at one bit position of a group of three words it is the rule's
table; it is a bijection and no involution. -/
def Obligations.SubstituteIsTheThreeBitTable : Prop :=
  (∀ (b : Block) (i : Fin 12) (j : Nat), j < 32 →
    ((substitute b).get i).getLsbD j =
      xor ((b.get i).getLsbD j) ((b.get (i + 4)).getLsbD j || !(b.get (i + 8)).getLsbD j)) ∧
  (∀ (b : Block) (i : Fin 12) (j : Nat), i.val < 4 → j < 32 →
    (((substitute b).get i).getLsbD j, ((substitute b).get (i + 4)).getLsbD j, ((substitute b).get (i + 8)).getLsbD j) =
      match (b.get i).getLsbD j, (b.get (i + 4)).getLsbD j, (b.get (i + 8)).getLsbD j with
      | false, false, false => (true, true, true)
      | false, false, true => (false, true, false)
      | false, true, false => (true, false, false)
      | false, true, true => (true, false, true)
      | true, false, false => (false, false, true)
      | true, false, true => (true, true, false)
      | true, true, false => (false, true, true)
      | true, true, true => (false, false, false)) ∧
  Function.Bijective substitute ∧ (∃ b, substitute (substitute b) ≠ b)

/-- R132: substitution, reversal and substitution again is reversal. -/
def Obligations.SubstituteInvertsUpToReversal : Prop :=
  ∀ b : Block, substitute (reverse (substitute b)) = reverse b

/-- R141, R142: where the round constant goes, and which one: word `i` receives the key, and at the positions 2, 3, 8, 9 the constant
of round `r` for encryption and of `11 - r` for decryption. R143: the compensating construction of decryption is a plain injection. -/
def Obligations.InjectionAddsTheKeyAndTheRoundConstant : Prop :=
  (∀ c : Word, reverse (template c) = template c ∧ diffuse (template c) = template c) ∧
  (∀ (rom b k : Block) (r i : Fin 12),
    (injectEnc rom b k r).get i =
      b.get i ^^^ k.get i ^^^ (if i = 2 ∨ i = 3 ∨ i = 8 ∨ i = 9 then rom.get r else 0)) ∧
  (∀ (rom b k : Block) (r : Fin 12), injectDec rom b k r = injectEnc rom b k (11 - r))

/-- R180: the key inverter, its fixed Blocks, and that it is an involution. -/
def Obligations.KeyInvertIsAnInvolution : Prop :=
  (∀ k : Block, keyInvert k = reverse (diffuse k) ∧ keyInvert (keyInvert k) = k) ∧
  keyInvert Block.zero = Block.zero ∧ keyInvert Block.ones = Block.ones ∧
  keyInvert ⟨1, 0, 0, 0, 0, 0, 0, 0, 0, 0, 0, 0⟩ = ⟨0, 1, 0, 0, 0, 1, 1, 0, 1, 1, 1, 1⟩

/-- R183: decryption undoes encryption, for every Block, key and round-constant table. -/
def Obligations.DecryptUndoesEncrypt : Prop :=
  ∀ rom b k : Block, decrypt rom (encrypt rom b k) k = b

/-- R43: `pack` and `unpack` are inverse, and where each bit stands on the port. -/
def Obligations.PackAndUnpackAreInverse : Prop :=
  (∀ b : Block, unpack (pack b) = b) ∧ (∀ v : PortWord, pack (unpack v) = v) ∧
  (∀ (b : Block) (i : Fin 12) (j : Nat), j < 32 → (pack b).getLsbD (352 - 32 * i.val + j) = (b.get i).getLsbD j)
end

