-- ==== Sys2Proof/Laws/Datapath.lean ====
section
/-! SUPPORT. What each layer of the datapath does to one word, and how to show two Blocks equal. -/

namespace Sys2Proof

@[simp] theorem Block.get_ofFn (f : Fin 12 → Word) (i : Fin 12) : (Block.ofFn f).get i = f i := by
  fin_cases i <;> rfl

@[simp] theorem Block.ofFn_get (b : Block) : Block.ofFn b.get = b := rfl

/-- Two Blocks with the same twelve words are the same. -/
theorem Block.ext_get {a b : Block} (h : ∀ i, a.get i = b.get i) : a = b := by
  rw [← Block.ofFn_get a, ← Block.ofFn_get b, funext h]

@[simp] theorem Block.get_fill (x : Word) (i : Fin 12) : (Block.fill x).get i = x := by simp [Block.fill]

@[simp] theorem Block.get_zero (i : Fin 12) : Block.zero.get i = 0 := by simp [Block.zero]

@[simp] theorem Block.get_ones (i : Fin 12) : Block.ones.get i = 0xFFFFFFFF := by simp [Block.ones]

@[simp] theorem Block.get_single (i j : Fin 12) (x : Word) :
    (Block.single i x).get j = if j = i then x else 0 := by simp [Block.single]

namespace Machine

@[simp] theorem xorBlock_get (a b : Block) (i : Fin 12) : (xorBlock a b).get i = a.get i ^^^ b.get i := by
  simp [xorBlock]

@[simp] theorem reverse_get (b : Block) (i : Fin 12) : (reverse b).get i = b.get i.rev := by simp [reverse]

@[simp] theorem reverse_reverse (b : Block) : reverse (reverse b) = b := Block.ext_get fun i => by simp

/-- Each word of the diffusion is the XOR of seven words of its argument. -/
theorem diffuse_get (b : Block) (i : Fin 12) :
    (diffuse b).get i =
      b.get i ^^^ (b.get (i + 2) ^^^ (b.get (i + 6) ^^^ (b.get (i + 7) ^^^
        (b.get (i + 9) ^^^ (b.get (i + 10) ^^^ b.get (i + 11)))))) := by
  simp [diffuse, xorAt, offsets]

theorem diffuseInv_get (b : Block) (i : Fin 12) :
    (diffuseInv b).get i =
      b.get i ^^^ (b.get (i + 1) ^^^ (b.get (i + 2) ^^^ (b.get (i + 3) ^^^
        (b.get (i + 5) ^^^ (b.get (i + 6) ^^^ b.get (i + 10)))))) := by
  simp [diffuseInv, xorAt, inverseOffsets]

@[simp] theorem earlyShift_get (b : Block) (i : Fin 12) :
    (earlyShift b).get i = rotl32 (b.get i) (rotAmount i) := by simp [earlyShift]

@[simp] theorem lateShift_get (b : Block) (i : Fin 12) :
    (lateShift b).get i = rotr32 (b.get i) (rotAmount i.rev) := by simp [lateShift]

@[simp] theorem substitute_get (b : Block) (i : Fin 12) :
    (substitute b).get i = b.get i ^^^ (b.get (i + 4) ||| ~~~(b.get (i + 8))) := by simp [substitute]

@[simp] theorem template_get (c : Word) (i : Fin 12) :
    (template c).get i = if i ∈ templatePositions then c else 0 := by simp [template]

@[simp] theorem injectEnc_get (rom b k : Block) (r i : Fin 12) :
    (injectEnc rom b k r).get i = b.get i ^^^ k.get i ^^^ (template (romRC rom r)).get i := by simp [injectEnc]

@[simp] theorem injectDec_get (rom b k : Block) (r i : Fin 12) :
    (injectDec rom b k r).get i =
      b.get i ^^^ k.get i ^^^ (diffuse (reverse (template (romRC rom r.rev)))).get i := by simp [injectDec]

@[simp] theorem inject_enc (rom b k : Block) (r : Fin 12) : inject rom .enc b k r = injectEnc rom b k r := rfl

@[simp] theorem inject_dec (rom b k : Block) (r : Fin 12) : inject rom .dec b k r = injectDec rom b k r := rfl

@[simp] theorem workingKey_enc (k : Block) : workingKey .enc k = k := rfl

@[simp] theorem workingKey_dec (k : Block) : workingKey .dec k = keyInvert k := rfl

/-- Every rotation amount of the core is below 32 (R103). -/
theorem rotAmount_lt (i : Fin 12) : rotAmount i < 32 := by fin_cases i <;> decide

@[simp] theorem unpack_get (v : PortWord) (i : Fin 12) :
    (unpack v).get i = v.extractLsb' (portBit i) 32 := by simp [unpack]

/-- One word shifted to its place on the port has its bits there and none in another word's place. -/
theorem wordOnPort_getLsbD (x : Word) (i k : Fin 12) {j : Nat} (hj : j < 32) :
    ((x.setWidth 384) <<< portBit k).getLsbD (portBit i + j) = (decide (k = i) && x.getLsbD j) := by
  have hi := i.isLt
  have hk := k.isLt
  rw [BitVec.getLsbD_shiftLeft, BitVec.getLsbD_setWidth]
  unfold portBit
  by_cases h : k = i
  · subst h
    have h1 : 352 - 32 * k.val + j < 384 := by omega
    have h2 : ¬ 352 - 32 * k.val + j < 352 - 32 * k.val := by omega
    have h3 : 352 - 32 * k.val + j - (352 - 32 * k.val) = j := by omega
    have h4 : j < 384 := by omega
    simp [h1, h2, h3, h4]
  · have hne : k.val ≠ i.val := fun e => h (Fin.ext e)
    by_cases hlt : 352 - 32 * i.val + j < 352 - 32 * k.val
    · simp [h, hlt]
    · have hx : x.getLsbD (352 - 32 * i.val + j - (352 - 32 * k.val)) = false :=
        BitVec.getLsbD_of_ge _ _ (by omega)
      rw [hx]
      simp [h]

@[simp] theorem afterRounds_zero (rom : Block) (m : Mode) (b k : Block) : afterRounds rom m b k 0 = b := rfl

/-- One more main round. -/
theorem afterRounds_succ (rom : Block) (m : Mode) (b k : Block) (r : Fin 11) :
    afterRounds rom m b k (r.val + 1) = mainRound rom m (afterRounds rom m b k r.val) k r := by
  fin_cases r <;> rfl

end Machine

end Sys2Proof
end

