-- ==== Sys2Proof/Laws/State.lean ====
section
/-! SUPPORT. One lemma per field per update of the state, so that no proof unfolds a record update. -/

namespace Sys2Proof.Machine

/-! `raiseErr` -/

@[simp] theorem raiseErr_S (s : State) : (raiseErr s).S = s.S := rfl
@[simp] theorem raiseErr_K (s : State) : (raiseErr s).K = s.K := rfl
@[simp] theorem raiseErr_mode (s : State) : (raiseErr s).mode = s.mode := rfl
@[simp] theorem raiseErr_rnd (s : State) : (raiseErr s).rnd = s.rnd := rfl
@[simp] theorem raiseErr_fsm (s : State) : (raiseErr s).fsm = s.fsm := rfl
@[simp] theorem raiseErr_done (s : State) : (raiseErr s).done = s.done := rfl
@[simp] theorem raiseErr_err (s : State) : (raiseErr s).err = true := rfl
@[simp] theorem raiseErr_rom (s : State) : (raiseErr s).rom = s.rom := rfl
@[simp] theorem raiseErr_ports (s : State) : (raiseErr s).ports = s.ports := rfl
@[simp] theorem raiseErr_lines (s : State) : (raiseErr s).lines = s.lines := rfl

/-! `clearStatus` -/

@[simp] theorem clearStatus_S (s : State) : (clearStatus s).S = s.S := rfl
@[simp] theorem clearStatus_K (s : State) : (clearStatus s).K = s.K := rfl
@[simp] theorem clearStatus_mode (s : State) : (clearStatus s).mode = s.mode := rfl
@[simp] theorem clearStatus_rnd (s : State) : (clearStatus s).rnd = s.rnd := rfl
@[simp] theorem clearStatus_fsm (s : State) : (clearStatus s).fsm = s.fsm := rfl
@[simp] theorem clearStatus_done (s : State) : (clearStatus s).done = false := rfl
@[simp] theorem clearStatus_err (s : State) : (clearStatus s).err = false := rfl
@[simp] theorem clearStatus_rom (s : State) : (clearStatus s).rom = s.rom := rfl
@[simp] theorem clearStatus_ports (s : State) : (clearStatus s).ports = s.ports := rfl
@[simp] theorem clearStatus_lines (s : State) : (clearStatus s).lines = s.lines := rfl

/-! `setDone` -/

@[simp] theorem setDone_S (s : State) : (setDone s).S = s.S := rfl
@[simp] theorem setDone_K (s : State) : (setDone s).K = s.K := rfl
@[simp] theorem setDone_mode (s : State) : (setDone s).mode = s.mode := rfl
@[simp] theorem setDone_rnd (s : State) : (setDone s).rnd = s.rnd := rfl
@[simp] theorem setDone_fsm (s : State) : (setDone s).fsm = s.fsm := rfl
@[simp] theorem setDone_done (s : State) : (setDone s).done = true := rfl
@[simp] theorem setDone_err (s : State) : (setDone s).err = s.err := rfl
@[simp] theorem setDone_rom (s : State) : (setDone s).rom = s.rom := rfl
@[simp] theorem setDone_ports (s : State) : (setDone s).ports = s.ports := rfl
@[simp] theorem setDone_lines (s : State) : (setDone s).lines = s.lines := rfl

/-! `accept` -/

@[simp] theorem accept_S (m : Mode) (s : State) : (accept m s).S = blockOperand s.ports := rfl
@[simp] theorem accept_K (m : Mode) (s : State) : (accept m s).K = workingKey m (keyOperand s.ports) := rfl
@[simp] theorem accept_mode (m : Mode) (s : State) : (accept m s).mode = m := rfl
@[simp] theorem accept_rnd (m : Mode) (s : State) : (accept m s).rnd = 0 := rfl
@[simp] theorem accept_fsm (m : Mode) (s : State) : (accept m s).fsm = .run := rfl
@[simp] theorem accept_done (m : Mode) (s : State) : (accept m s).done = false := rfl
@[simp] theorem accept_err (m : Mode) (s : State) : (accept m s).err = false := rfl
@[simp] theorem accept_rom (m : Mode) (s : State) : (accept m s).rom = s.rom := rfl
@[simp] theorem accept_ports (m : Mode) (s : State) : (accept m s).ports = s.ports := rfl
@[simp] theorem accept_lines (m : Mode) (s : State) : (accept m s).lines = s.lines := rfl

/-! `roundEdge` -/

@[simp] theorem roundEdge_S (m : Mode) (r : Fin 11) (s : State) : (roundEdge m r s).S = mainRound s.rom m s.S s.K r := rfl
@[simp] theorem roundEdge_K (m : Mode) (r : Fin 11) (s : State) : (roundEdge m r s).K = s.K := rfl
@[simp] theorem roundEdge_mode (m : Mode) (r : Fin 11) (s : State) : (roundEdge m r s).mode = s.mode := rfl
@[simp] theorem roundEdge_rnd (m : Mode) (r : Fin 11) (s : State) : (roundEdge m r s).rnd = if s.rnd = 10 then 11 else s.rnd + 1 := rfl
@[simp] theorem roundEdge_fsm (m : Mode) (r : Fin 11) (s : State) : (roundEdge m r s).fsm = if s.rnd = 10 then .fin else .run := rfl
@[simp] theorem roundEdge_done (m : Mode) (r : Fin 11) (s : State) : (roundEdge m r s).done = s.done := rfl
@[simp] theorem roundEdge_err (m : Mode) (r : Fin 11) (s : State) : (roundEdge m r s).err = s.err := rfl
@[simp] theorem roundEdge_rom (m : Mode) (r : Fin 11) (s : State) : (roundEdge m r s).rom = s.rom := rfl
@[simp] theorem roundEdge_ports (m : Mode) (r : Fin 11) (s : State) : (roundEdge m r s).ports = s.ports := rfl
@[simp] theorem roundEdge_lines (m : Mode) (r : Fin 11) (s : State) : (roundEdge m r s).lines = s.lines := rfl

/-! `finalEdge` -/

@[simp] theorem finalEdge_S (m : Mode) (s : State) : (finalEdge m s).S = finalTransform s.rom m s.S s.K := rfl
@[simp] theorem finalEdge_K (m : Mode) (s : State) : (finalEdge m s).K = s.K := rfl
@[simp] theorem finalEdge_mode (m : Mode) (s : State) : (finalEdge m s).mode = s.mode := rfl
@[simp] theorem finalEdge_rnd (m : Mode) (s : State) : (finalEdge m s).rnd = 0 := rfl
@[simp] theorem finalEdge_fsm (m : Mode) (s : State) : (finalEdge m s).fsm = .idle := rfl
@[simp] theorem finalEdge_done (m : Mode) (s : State) : (finalEdge m s).done = true := rfl
@[simp] theorem finalEdge_err (m : Mode) (s : State) : (finalEdge m s).err = s.err := rfl
@[simp] theorem finalEdge_rom (m : Mode) (s : State) : (finalEdge m s).rom = s.rom := rfl
@[simp] theorem finalEdge_ports (m : Mode) (s : State) : (finalEdge m s).ports = s.ports := rfl
@[simp] theorem finalEdge_lines (m : Mode) (s : State) : (finalEdge m s).lines = s.lines := rfl

/-! `resetRegs` -/

@[simp] theorem resetRegs_S (s : State) : (resetRegs s).S = Block.zero := rfl
@[simp] theorem resetRegs_K (s : State) : (resetRegs s).K = Block.zero := rfl
@[simp] theorem resetRegs_mode (s : State) : (resetRegs s).mode = .enc := rfl
@[simp] theorem resetRegs_rnd (s : State) : (resetRegs s).rnd = 0 := rfl
@[simp] theorem resetRegs_fsm (s : State) : (resetRegs s).fsm = .idle := rfl
@[simp] theorem resetRegs_done (s : State) : (resetRegs s).done = false := rfl
@[simp] theorem resetRegs_err (s : State) : (resetRegs s).err = false := rfl
@[simp] theorem resetRegs_rom (s : State) : (resetRegs s).rom = s.rom := rfl
@[simp] theorem resetRegs_ports (s : State) : (resetRegs s).ports = s.ports := rfl
@[simp] theorem resetRegs_lines (s : State) : (resetRegs s).lines = s.lines := rfl

/-! `driveHostWord` -/

@[simp] theorem driveHostWord_S (w : BitVec 3) (s : State) : (driveHostWord w s).S = s.S := rfl
@[simp] theorem driveHostWord_K (w : BitVec 3) (s : State) : (driveHostWord w s).K = s.K := rfl
@[simp] theorem driveHostWord_mode (w : BitVec 3) (s : State) : (driveHostWord w s).mode = s.mode := rfl
@[simp] theorem driveHostWord_rnd (w : BitVec 3) (s : State) : (driveHostWord w s).rnd = s.rnd := rfl
@[simp] theorem driveHostWord_fsm (w : BitVec 3) (s : State) : (driveHostWord w s).fsm = s.fsm := rfl
@[simp] theorem driveHostWord_done (w : BitVec 3) (s : State) : (driveHostWord w s).done = s.done := rfl
@[simp] theorem driveHostWord_err (w : BitVec 3) (s : State) : (driveHostWord w s).err = s.err := rfl
@[simp] theorem driveHostWord_rom (w : BitVec 3) (s : State) : (driveHostWord w s).rom = s.rom := rfl
@[simp] theorem driveHostWord_ports (w : BitVec 3) (s : State) : (driveHostWord w s).ports = { s.ports with rst := w.getLsbD 2, cmd := w.extractLsb' 0 2 } := rfl
@[simp] theorem driveHostWord_lines (w : BitVec 3) (s : State) : (driveHostWord w s).lines = s.lines := rfl

/-! `collide` -/

@[simp] theorem collide_S (c : BitVec 2) (s : State) : (collide c s).S = s.S := by
  unfold collide; split <;> rfl
@[simp] theorem collide_K (c : BitVec 2) (s : State) : (collide c s).K = s.K := by
  unfold collide; split <;> rfl
@[simp] theorem collide_mode (c : BitVec 2) (s : State) : (collide c s).mode = s.mode := by
  unfold collide; split <;> rfl
@[simp] theorem collide_rnd (c : BitVec 2) (s : State) : (collide c s).rnd = s.rnd := by
  unfold collide; split <;> rfl
@[simp] theorem collide_fsm (c : BitVec 2) (s : State) : (collide c s).fsm = s.fsm := by
  unfold collide; split <;> rfl
@[simp] theorem collide_done (c : BitVec 2) (s : State) : (collide c s).done = s.done := by
  unfold collide; split <;> rfl
@[simp] theorem collide_err (c : BitVec 2) (s : State) : (collide c s).err = (s.err || c != 0) := by
  unfold collide; split <;> simp_all
@[simp] theorem collide_rom (c : BitVec 2) (s : State) : (collide c s).rom = s.rom := by
  unfold collide; split <;> rfl
@[simp] theorem collide_ports (c : BitVec 2) (s : State) : (collide c s).ports = s.ports := by
  unfold collide; split <;> rfl
@[simp] theorem collide_lines (c : BitVec 2) (s : State) : (collide c s).lines = s.lines := by
  unfold collide; split <;> rfl
@[simp] theorem collide_zero (s : State) : collide 0 s = s := rfl

/-! `hostDrives`: the registers and the ROM stay -/

@[simp] theorem hostDrives_S (s : State) : (hostDrives s).S = s.S := by
  unfold hostDrives; split <;> rfl
@[simp] theorem hostDrives_K (s : State) : (hostDrives s).K = s.K := by
  unfold hostDrives; split <;> rfl
@[simp] theorem hostDrives_mode (s : State) : (hostDrives s).mode = s.mode := by
  unfold hostDrives; split <;> rfl
@[simp] theorem hostDrives_rnd (s : State) : (hostDrives s).rnd = s.rnd := by
  unfold hostDrives; split <;> rfl
@[simp] theorem hostDrives_fsm (s : State) : (hostDrives s).fsm = s.fsm := by
  unfold hostDrives; split <;> rfl
@[simp] theorem hostDrives_done (s : State) : (hostDrives s).done = s.done := by
  unfold hostDrives; split <;> rfl
@[simp] theorem hostDrives_err (s : State) : (hostDrives s).err = s.err := by
  unfold hostDrives; split <;> rfl
@[simp] theorem hostDrives_rom (s : State) : (hostDrives s).rom = s.rom := by
  unfold hostDrives; split <;> rfl

theorem hostDrives_nil {s : State} (h : s.lines = []) :
    hostDrives s = { s with ports := { s.ports with rst := false, cmd := 0 } } := by
  simp [hostDrives, h]

theorem hostDrives_cons {s : State} {l : Inputs} {ls : List Inputs} (h : s.lines = l :: ls) :
    hostDrives s = { s with ports := l, lines := ls } := by
  simp [hostDrives, h]

end Sys2Proof.Machine
end

