-- ==== Sys2Proof/Laws/Ops.lean ====
section
/-! SUPPORT. What the shared operations over the state can do: where the sequencer stands, and what an edge in IDLE, in RUN or
in FIN answers. Later proofs cite these and do not unfold the operations. -/

namespace Sys2Proof.Machine

/-! ### The sequencer's position -/

theorem seqPos_idle {s : State} : seqPos s = some .idle ↔ s.fsm = .idle ∧ s.rnd = 0 := by
  unfold seqPos
  cases s.fsm <;> simp

theorem seqPos_run {s : State} {r : Fin 11} :
    seqPos s = some (.run r) ↔ s.fsm = .run ∧ s.rnd.toNat = r.val := by
  unfold seqPos
  cases s.fsm <;> simp [Fin.ext_iff]
  omega

theorem seqPos_fin {s : State} : seqPos s = some .fin ↔ s.fsm = .fin ∧ s.rnd = 11 := by
  unfold seqPos
  cases s.fsm <;> simp

/-- A counter value below 11 read as a number and as a 4-bit vector say the same. -/
theorem rnd_eq_ofNat_iff (x : BitVec 4) (r : Fin 11) : x = BitVec.ofNat 4 r.val ↔ x.toNat = r.val := by
  constructor
  · rintro rfl; simp; omega
  · intro h; apply BitVec.eq_of_toNat_eq; simp [h]; omega

/-- The round index of a main round is 10 exactly when the counter is. -/
theorem rnd_eq_ten_iff {s : State} {r : Fin 11} (h : s.rnd.toNat = r.val) : s.rnd = 10 ↔ r = 10 := by
  rw [Fin.ext_iff, ← h, ← BitVec.toNat_inj]; rfl

/-! ### Edges in IDLE, RUN and FIN -/

/-- An edge in IDLE has its effect. -/
theorem idleEdge_next {f : State → State} {s : State} (hr : s.ports.rst = false) (hp : seqPos s = some .idle) :
    idleEdge f s = .next (f s) := by
  simp [idleEdge, hr, hp]

/-- All that an edge in IDLE can answer as a next state. -/
theorem idleEdge_inv {f : State → State} {s t : State} (h : idleEdge f s = .next t) :
    s.ports.rst = false ∧ s.fsm = .idle ∧ s.rnd = 0 ∧ t = f s := by
  unfold idleEdge at h
  split at h
  · cases h
  · split at h <;> cases h
    have := seqPos_idle.1 ‹_›
    simp_all

/-- An edge with a main round under way. -/
theorem busyEdge_run {f : State → State} {s : State} {r : Fin 11} (hr : s.ports.rst = false)
    (hp : seqPos s = some (.run r)) : busyEdge f s = .next (f (roundEdge s.mode r s)) := by
  simp [busyEdge, hr, hp]

/-- An edge with the final transform under way. -/
theorem busyEdge_fin {f : State → State} {s : State} (hr : s.ports.rst = false) (hp : seqPos s = some .fin) :
    busyEdge f s = .next (f (finalEdge s.mode s)) := by
  simp [busyEdge, hr, hp]

/-- All that an edge in RUN or FIN can answer as a next state. -/
theorem busyEdge_inv {f : State → State} {s t : State} (h : busyEdge f s = .next t) :
    s.ports.rst = false ∧
      ((∃ r, seqPos s = some (.run r) ∧ t = f (roundEdge s.mode r s)) ∨
        (seqPos s = some .fin ∧ t = f (finalEdge s.mode s))) := by
  unfold busyEdge at h
  split at h
  · cases h
  · split at h <;> cases h <;> simp_all

/-- The sequencer's main round in its own direction. -/
theorem seqRound_run {m : Mode} {s : State} {r : Fin 11} (hr : s.ports.rst = false)
    (hp : seqPos s = some (.run r)) (hm : s.mode = m) :
    seqRound m s = .next (collide s.ports.cmd (roundEdge m r s)) := by
  simp [seqRound, hr, hp, hm]

/-- The sequencer's final transform in its own direction. -/
theorem seqFinal_fin {m : Mode} {s : State} (hr : s.ports.rst = false) (hp : seqPos s = some .fin)
    (hm : s.mode = m) : seqFinal m s = .next (collide s.ports.cmd (finalEdge m s)) := by
  simp [seqFinal, hr, hp, hm]

end Sys2Proof.Machine
end

