-- ==== Sys2Proof/Laws/Step.lean ====
section
/-! SUPPORT. The bits that select an edge's rows, read back; and all that one step can do. -/

namespace Sys2Proof.Machine

/-! ### The edge word -/

@[simp] theorem edgeWord_rst (s : State) : (edgeWord s).rst = s.ports.rst := by
  obtain ⟨S, K, mode, rnd, fsm, done, err, rom, ⟨rst, cmd, b, k⟩, lines⟩ := s
  simp only [edgeWord, seqWord, hostWord]
  revert cmd; cases mode <;> cases fsm <;> cases rst <;> decide

@[simp] theorem edgeWord_cmd (s : State) : (edgeWord s).cmd = s.ports.cmd := by
  obtain ⟨S, K, mode, rnd, fsm, done, err, rom, ⟨rst, cmd, b, k⟩, lines⟩ := s
  simp only [edgeWord, seqWord, hostWord]
  revert cmd; cases mode <;> cases fsm <;> cases rst <;> decide

@[simp] theorem edgeWord_seq (s : State) : (edgeWord s).seq = seqWord s := by
  obtain ⟨S, K, mode, rnd, fsm, done, err, rom, ⟨rst, cmd, b, k⟩, lines⟩ := s
  simp only [edgeWord, seqWord, hostWord]
  revert cmd; cases mode <;> cases fsm <;> cases rst <;> decide

@[simp] theorem edgeWord_fsm (s : State) : (edgeWord s).fsm = s.fsm.code := by
  obtain ⟨S, K, mode, rnd, fsm, done, err, rom, ⟨rst, cmd, b, k⟩, lines⟩ := s
  simp only [edgeWord, seqWord, hostWord]
  revert cmd; cases mode <;> cases fsm <;> cases rst <;> decide

/-- A 2-bit command is one of the four of R60. -/
theorem cmd_cases (c : BitVec 2) : c = 0b00 ∨ c = 0b01 ∨ c = 0b10 ∨ c = 0b11 := by revert c; decide

/-- The row of an edge with `rst = 1`. -/
theorem decodeEdge_rst {s : State} (h : s.ports.rst = true) : decodeEdge (edgeWord s) = .rst s.ports.cmd := by
  simp [decodeEdge, h]

/-- The row of an edge in IDLE. -/
theorem decodeEdge_idle {s : State} (h : s.ports.rst = false) (hf : s.fsm = .idle) :
    decodeEdge (edgeWord s) = decodeCmdIdle s.ports.cmd := by
  simp [decodeEdge, h, hf, Fsm.code]

/-- The row of an edge in RUN. -/
theorem decodeEdge_run {s : State} (h : s.ports.rst = false) (hf : s.fsm = .run) :
    decodeEdge (edgeWord s) = decodeCmdBusy s.ports.cmd := by
  simp [decodeEdge, h, hf, Fsm.code]

/-- The row of an edge in FIN. -/
theorem decodeEdge_fin {s : State} (h : s.ports.rst = false) (hf : s.fsm = .fin) :
    decodeEdge (edgeWord s) = decodeCmdBusy s.ports.cmd := by
  simp [decodeEdge, h, hf, Fsm.code]

/-- The row of an edge with `fsm` = 11. -/
theorem decodeEdge_code11 {s : State} (h : s.ports.rst = false) (hf : s.fsm = .code11) :
    decodeEdge (edgeWord s) = .unreachable s.mode.bit := by
  cases hm : s.mode <;> simp [decodeEdge, h, hf, hm, Fsm.code, seqWord, decodeSeq, Mode.bit]

/-! ### The rows an edge can run -/

/-- Every command row of IDLE is an edge in IDLE with the command's effect. -/
theorem exec_decodeCmdIdle (c : BitVec 2) (s : State) : exec (decodeCmdIdle c) s = idleEdge (command c) s := by
  obtain rfl | rfl | rfl | rfl := cmd_cases c <;> rfl

/-- Every command row of RUN and FIN is a busy edge with the collision's effect. -/
theorem exec_decodeCmdBusy (c : BitVec 2) (s : State) : exec (decodeCmdBusy c) s = busyEdge (collide c) s := by
  obtain rfl | rfl | rfl | rfl := cmd_cases c <;> rfl

/-! ### One step -/

/-- An edge with `rst = 1`. -/
theorem step_rst {s : State} (h : s.ports.rst = true) : step s = .next (hostDrives (resetRegs s)) := by
  rw [step, decodeEdge_rst h]; rfl

/-- An edge in IDLE. -/
theorem step_idle {s : State} (h : s.ports.rst = false) (hp : seqPos s = some .idle) :
    step s = .next (hostDrives (command s.ports.cmd s)) := by
  rw [step, decodeEdge_idle h (seqPos_idle.1 hp).1, exec_decodeCmdIdle, idleEdge_next h hp]

/-- An edge that computes a main round. -/
theorem step_run {s : State} {r : Fin 11} (h : s.ports.rst = false) (hp : seqPos s = some (.run r)) :
    step s = .next (hostDrives (collide s.ports.cmd (roundEdge s.mode r s))) := by
  rw [step, decodeEdge_run h (seqPos_run.1 hp).1, exec_decodeCmdBusy, busyEdge_run h hp]

/-- An edge that computes the final transform. -/
theorem step_fin {s : State} (h : s.ports.rst = false) (hp : seqPos s = some .fin) :
    step s = .next (hostDrives (collide s.ports.cmd (finalEdge s.mode s))) := by
  rw [step, decodeEdge_fin h (seqPos_fin.1 hp).1, exec_decodeCmdBusy, busyEdge_fin h hp]

/-- An edge with `rst = 0` in an unreachable sequencer state. -/
theorem step_none {s : State} (h : s.ports.rst = false) (hp : seqPos s = none) :
    step s = .fault .unreachableSequencer := by
  have key : exec (decodeEdge (edgeWord s)) s = .fault .unreachableSequencer := by
    cases hf : s.fsm with
    | idle => rw [decodeEdge_idle h hf, exec_decodeCmdIdle]; simp [idleEdge, h, hp]
    | run => rw [decodeEdge_run h hf, exec_decodeCmdBusy]; simp [busyEdge, h, hp]
    | fin => rw [decodeEdge_fin h hf, exec_decodeCmdBusy]; simp [busyEdge, h, hp]
    | code11 => rw [decodeEdge_code11 h hf]; rfl
  rw [step, key]

/-- All that one step can do: reset, a command in IDLE, a main round, the final transform, or the fault of R172. -/
theorem step_cases (s : State) :
    (s.ports.rst = true ∧ step s = .next (hostDrives (resetRegs s))) ∨
    (s.ports.rst = false ∧ seqPos s = some .idle ∧ step s = .next (hostDrives (command s.ports.cmd s))) ∨
    (∃ r, s.ports.rst = false ∧ seqPos s = some (.run r) ∧
      step s = .next (hostDrives (collide s.ports.cmd (roundEdge s.mode r s)))) ∨
    (s.ports.rst = false ∧ seqPos s = some .fin ∧
      step s = .next (hostDrives (collide s.ports.cmd (finalEdge s.mode s)))) ∨
    (s.ports.rst = false ∧ seqPos s = none ∧ step s = .fault .unreachableSequencer) := by
  cases h : s.ports.rst with
  | true => exact .inl ⟨rfl, step_rst h⟩
  | false =>
    refine .inr ?_
    cases hp : seqPos s with
    | none => exact .inr (.inr (.inr ⟨rfl, rfl, step_none h hp⟩))
    | some p =>
      cases p with
      | idle => exact .inl ⟨rfl, rfl, step_idle h hp⟩
      | run r => exact .inr (.inl ⟨r, rfl, rfl, step_run h hp⟩)
      | fin => exact .inr (.inr (.inl ⟨rfl, rfl, step_fin h hp⟩))

/-! ### Runs -/

@[simp] theorem run_zero (s : State) : run 0 s = .next s := rfl

/-- One edge, then the rest. -/
theorem run_succ {s t : State} (h : step s = .next t) (n : Nat) : run (n + 1) s = run n t := by
  simp [run, h]

/-- Two runs in a row. -/
theorem run_add {s t : State} {m : Nat} (h : run m s = .next t) (n : Nat) : run (m + n) s = run n t := by
  induction m generalizing s with
  | zero => cases h; simp
  | succ m ih =>
    rw [Nat.add_right_comm]
    cases hs : step s with
    | next u => rw [run_succ hs] at h ⊢; exact ih h
    | fault f => simp [run, hs] at h
    | refused r => simp [run, hs] at h

/-- A run of the model is a run of the host's core. -/
theorem run_eq_core (n : Nat) (s : State) : Sys2Proof.core.run n s = run n s := by
  induction n generalizing s with
  | zero => rfl
  | succ n ih =>
    have hc : Sys2Proof.core.step s = step s := rfl
    cases hs : step s <;> simp [run, Host.Core.run, hc, hs, ih] <;> rfl

end Sys2Proof.Machine
end

