-- ==== Sys2Proof/Laws/HostProgram.lean ====
section
/-! SUPPORT. What the lines of a host program drive (30_encoding.md R67, R68). -/

namespace Sys2Proof.Machine

/-- The host's value `{rst, cmd}` says both of its ports. -/
theorem hostWord_eq (p : Inputs) (w : BitVec 3) :
    hostWord p = w ↔ p.rst = w.getLsbD 2 ∧ p.cmd = w.extractLsb' 0 2 := by
  obtain ⟨rst, cmd, b, k⟩ := p
  simp only [hostWord]
  revert w cmd; cases rst <;> decide

/-- What a NOP line drives: no command, the data ports anything. -/
theorem drives_nop (p : Inputs) : Line.nop.drives p = true ↔ p.rst = false ∧ p.cmd = 0 := by
  simp [Line.drives, Line.word, Line.operands, hostWord_eq]

/-- What an ENC line drives. -/
theorem drives_enc (b k : Block) (p : Inputs) :
    (Line.enc b k).drives p = true ↔
      p.rst = false ∧ p.cmd = 0b01 ∧ p.blockIn = pack b ∧ p.keyIn = pack k := by
  simp [Line.drives, Line.word, Line.operands, hostWord_eq, and_assoc]

/-- What a DEC line drives. -/
theorem drives_dec (b k : Block) (p : Inputs) :
    (Line.dec b k).drives p = true ↔
      p.rst = false ∧ p.cmd = 0b10 ∧ p.blockIn = pack b ∧ p.keyIn = pack k := by
  simp [Line.drives, Line.word, Line.operands, hostWord_eq, and_assoc]

/-- `drive` makes port values that its line drives. -/
theorem drives_drive (blockIn keyIn : PortWord) (l : Line) : l.drives (l.drive blockIn keyIn) = true := by
  have hw : hostWord (l.drive blockIn keyIn) = l.word := (hostWord_eq _ _).2 ⟨rfl, rfl⟩
  unfold Line.drives
  rw [hw]
  simp only [Line.drive]
  cases l.operands <;> simp

/-- A host that drives two programs in a row drives the first and then the second. -/
theorem drivesAll_append {a b : List Line} {ps : List Inputs} (h : drivesAll (a ++ b) ps = true) :
    drivesAll a (ps.take a.length) = true ∧ drivesAll b (ps.drop a.length) = true := by
  induction a generalizing ps with
  | nil => exact ⟨by simp [drivesAll], by simpa using h⟩
  | cons x a ih =>
    cases ps with
    | nil => simp [drivesAll] at h
    | cons p ps =>
      simp only [List.cons_append, drivesAll, Bool.and_eq_true] at h
      simp [drivesAll, h.1, ih h.2]

/-- A host that drives a program drives one entry per line. -/
theorem drivesAll_length {a : List Line} {ps : List Inputs} (h : drivesAll a ps = true) : ps.length = a.length := by
  induction a generalizing ps with
  | nil => cases ps <;> simp [drivesAll] at h ⊢
  | cons x a ih =>
    cases ps with
    | nil => simp [drivesAll] at h
    | cons p ps =>
      simp only [drivesAll, Bool.and_eq_true] at h
      simp [ih h.2]

/-- Every entry of a waiting host is a NOP. -/
theorem drivesAll_wait {n : Nat} {ps : List Inputs} (h : drivesAll (List.replicate n .nop) ps = true) :
    ∀ p ∈ ps, p.rst = false ∧ p.cmd = 0 := by
  induction n generalizing ps with
  | zero => cases ps <;> simp [drivesAll] at h ⊢
  | succ n ih =>
    cases ps with
    | nil => simp
    | cons p ps =>
      simp only [List.replicate, drivesAll, Bool.and_eq_true] at h
      have hp := (drives_nop p).1 h.1
      intro q hq
      rcases List.mem_cons.1 hq with rfl | hq
      · exact hp
      · exact ih h.2 q hq

/-- The lines of a program are those of its statements, in order. -/
theorem programLines_cons (t : Stmt) (p : List Stmt) : programLines (t :: p) = t.expand ++ programLines p := by
  simp [programLines]

end Sys2Proof.Machine
end

