-- ==== Sys2Proof/Laws/PerInstr.lean ====
section
/-! SUPPORT. What is said of every instruction as syntax, one lemma per constructor. -/

namespace Sys2Proof.Laws

/-- The row is well formed, and its byte has no bit above the format's width (30_encoding.md R66): 2 bits in CMD, 3 in SEQ and
HOST. -/
def FormatWidth.Statement (i : Instr) : Prop :=
  i.wf = true ∧ (encode i).2.toNat < match (encode i).1 with
    | .cmdIdle => 4
    | .cmdBusy => 4
    | .seq => 8
    | .host => 8

theorem FormatWidth.nop : FormatWidth.Statement .nop := ⟨rfl, by decide⟩
theorem FormatWidth.enc : FormatWidth.Statement .enc := ⟨rfl, by decide⟩
theorem FormatWidth.dec : FormatWidth.Statement .dec := ⟨rfl, by decide⟩
theorem FormatWidth.rsvd : FormatWidth.Statement .rsvd := ⟨rfl, by decide⟩
theorem FormatWidth.noCmd : FormatWidth.Statement .noCmd := ⟨rfl, by decide⟩
theorem FormatWidth.collideEnc : FormatWidth.Statement .collideEnc := ⟨rfl, by decide⟩
theorem FormatWidth.collideDec : FormatWidth.Statement .collideDec := ⟨rfl, by decide⟩
theorem FormatWidth.collideRsvd : FormatWidth.Statement .collideRsvd := ⟨rfl, by decide⟩
theorem FormatWidth.idle (mode : BitVec 1) : FormatWidth.Statement (.idle mode) := by
  revert mode; simp only [FormatWidth.Statement]; decide
theorem FormatWidth.runEnc : FormatWidth.Statement .runEnc := ⟨rfl, by decide⟩
theorem FormatWidth.runDec : FormatWidth.Statement .runDec := ⟨rfl, by decide⟩
theorem FormatWidth.finEnc : FormatWidth.Statement .finEnc := ⟨rfl, by decide⟩
theorem FormatWidth.finDec : FormatWidth.Statement .finDec := ⟨rfl, by decide⟩
theorem FormatWidth.unreachable (mode : BitVec 1) : FormatWidth.Statement (.unreachable mode) := by
  revert mode; simp only [FormatWidth.Statement]; decide
theorem FormatWidth.rst (cc : BitVec 2) : FormatWidth.Statement (.rst cc) := by
  revert cc; simp only [FormatWidth.Statement]; decide

end Sys2Proof.Laws
end

