-- ==== Sys2Proof/Tests/Slice0.lean ====
section
/-! SUPPORT. Tests. Expected values come from spec/95_test_vectors.md (named by their ids) or from the encoding columns of
spec/opcode_table.json; then the witnesses that the statements' hypotheses can be met. -/

namespace Sys2Proof.Tests

open Sys2Proof.Machine

/-! ### Helpers -/

/-- `B0` of 95_test_vectors.md. -/
def b0 : Block := ⟨0, 1, 2, 3, 4, 5, 6, 7, 8, 9, 10, 11⟩

/-- `K0` of 95_test_vectors.md. -/
def k0 : Block :=
  ⟨0x00000000, 0x01010101, 0x02020202, 0x03030303, 0x04040404, 0x05050505, 0x06060606, 0x07070707, 0x08080808, 0x09090909,
   0x0A0A0A0A, 0x0B0B0B0B⟩

/-- The illustrative round-constant table `RC1` of 95_test_vectors.md. -/
def rc1 : Block := ⟨1, 2, 3, 4, 5, 6, 7, 8, 9, 10, 11, 12⟩

/-- `pack(B0)`, V-PK-1. -/
def b0Port : PortWord := 0x000000000000000100000002000000030000000400000005000000060000000700000008000000090000000A0000000B

/-- `pack(K0)`. -/
def k0Port : PortWord := 0x000000000101010102020202030303030404040405050505060606060707070708080808090909090A0A0A0A0B0B0B0B

/-- A key on the port: the key with word 11 = 1 and the rest 0, V-PK-3. -/
def k1Port : PortWord := 1

/-- A small state: sequencer, direction and command as given, `S` = `B0`, `K` = `K0`, ROM `RC1`, `rst` = 0. -/
def st (f : Fsm) (r : BitVec 4) (m : Mode) (c : BitVec 2) : State :=
  { S := b0, K := k0, mode := m, rnd := r, fsm := f, done := false, err := false, rom := rc1,
    ports := ⟨false, c, b0Port, k1Port⟩, lines := [] }

/-- `n` lines of a host that drives the command `c`. -/
def hold (n : Nat) (c : BitVec 2) : List Inputs := List.replicate n ⟨false, c, 0, 0⟩

/-- What a step leaves, as far as a test looks at it. -/
def after (r : Result) : Option (Fsm × BitVec 4 × Mode × Bool × Bool) :=
  match r with
  | .next t => some (t.fsm, t.rnd, t.mode, t.done, t.err)
  | .fault _ => none
  | .refused _ => none

/-- The Block that a step leaves in `S`. -/
def blockAfter (r : Result) : Option Block :=
  match r with
  | .next t => some t.S
  | .fault _ => none
  | .refused _ => none

/-- The Block that a step leaves in `K`. -/
def keyAfter (r : Result) : Option Block :=
  match r with
  | .next t => some t.K
  | .fault _ => none
  | .refused _ => none

/-! ### WellFormed -/

theorem test_wf_rejects_reset_of_reset : Line.wf (.rstWith .rst) = false := by decide
theorem test_wf_rejects_nested_reset : Line.wf (.rstWith (.rstWith .nop)) = false := by decide
theorem test_wf_accepts_reset_with_command : Line.wf (.rstWith (.dec b0 k0)) = true := by decide
theorem test_wf_program_rejects : wfProgram [.line .nop, .line (.rstWith .rst)] = false := by decide
theorem test_wf_instr : Instr.wf (.rst 0b11) = true := by decide

/-! ### Encoding: words written out from the encoding columns -/

theorem test_decode_cmd_idle :
    decode .cmdIdle 0b00 = .ok .nop ∧ decode .cmdIdle 0b01 = .ok .enc ∧
    decode .cmdIdle 0b10 = .ok .dec ∧ decode .cmdIdle 0b11 = .ok .rsvd := by decide

theorem test_decode_cmd_busy :
    decode .cmdBusy 0b00 = .ok .noCmd ∧ decode .cmdBusy 0b01 = .ok .collideEnc ∧
    decode .cmdBusy 0b10 = .ok .collideDec ∧ decode .cmdBusy 0b11 = .ok .collideRsvd := by decide

theorem test_decode_seq :
    decode .seq 0b000 = .ok (.idle 0) ∧ decode .seq 0b001 = .ok (.idle 1) ∧ decode .seq 0b010 = .ok .runEnc ∧
    decode .seq 0b011 = .ok .runDec ∧ decode .seq 0b100 = .ok .finEnc ∧ decode .seq 0b101 = .ok .finDec ∧
    decode .seq 0b110 = .ok (.unreachable 0) ∧ decode .seq 0b111 = .ok (.unreachable 1) := by decide

theorem test_decode_host :
    decode .host 0b100 = .ok (.rst 0b00) ∧ decode .host 0b110 = .ok (.rst 0b10) ∧
    decode .host 0b001 = .error .rstLow := by decide

theorem test_decode_rejects_longer : decode .cmdIdle 0b100 = .error .bitAboveFormat ∧
    decode .seq 0b1000 = .error .bitAboveFormat := by decide

theorem test_table_word :
    decodeTableWord 8 0 = some .nop ∧ decodeTableWord 8 1 = some .enc ∧ decodeTableWord 8 2 = some .dec ∧
    decodeTableWord 8 3 = some .rsvd ∧ decodeTableWord 8 4 = some (.rst 0) ∧ decodeTableWord 8 8 = none := by decide

theorem test_fetch_word_reaches_step :
    decodeEdge (edgeWord (State.reset.withFetchWord 8 1)) = .enc ∧
    decodeEdge (edgeWord (State.reset.withFetchWord 8 6)) = .rst 2 := by decide

/-! ### The datapath -/

-- V-ROT-1, V-ROT-4, V-ROT-6, V-ROT-7, V-ROT-12
theorem test_rotl : rotl32 1 1 = 2 ∧ rotl32 0x80000000 1 = 1 ∧ rotl32 0x12345678 0 = 0x12345678 ∧
    rotl32 0x12345678 4 = 0x23456781 ∧ rotl32 0x12345678 36 = 0x23456781 := by decide
-- V-ROT-2, V-ROT-3, V-ROT-8, V-ROT-10
theorem test_rotr : rotr32 2 1 = 1 ∧ rotr32 1 1 = 0x80000000 ∧ rotr32 0x12345678 4 = 0x81234567 ∧
    rotr32 0x12345678 31 = 0x2468ACF0 := by decide
-- V-D-1
theorem test_diffuse_b0 : diffuse b0 =
    ⟨0xB, 0xC, 0xD, 0x6, 0x3, 0xC, 0xD, 0xA, 0x7, 0xC, 0xD, 0x2⟩ := by decide
-- V-D-4
theorem test_diffuse_single : diffuse (.single 5 0xFFFFFFFF) =
    ⟨0, 0, 0, 0xFFFFFFFF, 0, 0xFFFFFFFF, 0xFFFFFFFF, 0xFFFFFFFF, 0xFFFFFFFF, 0, 0xFFFFFFFF, 0xFFFFFFFF⟩ := by decide
-- V-SH-3
theorem test_early_shift : earlyShift (.fill 0x80000000) =
    ⟨0x80000000, 0x00000001, 0x00000004, 0x00000020, 0x00000200, 0x00004000, 0x00100000, 0x08000000, 0x00000008, 0x00001000,
     0x00400000, 0x00000002⟩ := by decide
-- V-SH-2
theorem test_late_shift : lateShift (.fill 1) =
    ⟨0x40000000, 0x00000200, 0x00080000, 0x10000000, 0x00000010, 0x00000800, 0x00020000, 0x00400000, 0x04000000, 0x20000000,
     0x80000000, 0x00000001⟩ := by decide
-- V-S-3, V-S-2
theorem test_substitute_b0 : substitute b0 =
    ⟨0xFFFFFFF7, 0xFFFFFFF6, 0xFFFFFFF5, 0xFFFFFFF4, 0xFFFFFFFB, 0xFFFFFFFA, 0xFFFFFFF9, 0xFFFFFFF8, 0xFFFFFFF3, 0xFFFFFFF2,
     0xFFFFFFF1, 0xFFFFFFF0⟩ := by decide
theorem test_substitute_ones : substitute .ones = .zero := by decide
-- V-I-8, V-I-9
theorem test_inject_enc : injectEnc rc1 b0 k0 0 =
    ⟨0x00000000, 0x01010100, 0x02020201, 0x03030301, 0x04040400, 0x05050500, 0x06060600, 0x07070700, 0x08080801, 0x09090901,
     0x0A0A0A00, 0x0B0B0B00⟩ := by decide
theorem test_inject_dec : injectDec rc1 b0 k0 0 =
    ⟨0x00000000, 0x01010100, 0x0202020C, 0x0303030C, 0x04040400, 0x05050500, 0x06060600, 0x07070700, 0x0808080C, 0x0909090C,
     0x0A0A0A00, 0x0B0B0B00⟩ := by decide
-- V-K-2
theorem test_key_invert : keyInvert k0 =
    ⟨0x02020202, 0x0D0D0D0D, 0x0C0C0C0C, 0x07070707, 0x0A0A0A0A, 0x0D0D0D0D, 0x0C0C0C0C, 0x03030303, 0x06060606, 0x0D0D0D0D,
     0x0C0C0C0C, 0x0B0B0B0B⟩ := by decide
-- V-PK-1, V-PK-2, V-PK-3
theorem test_pack : pack b0 = b0Port ∧ (pack (.single 0 0x80000000)).getLsbD 383 = true ∧ pack (.single 11 1) = 1 := by decide
theorem test_unpack : unpack b0Port = b0 := by decide

/-! ### One edge each: the rows of V-C -/

-- V-C-1 (with `done` = 1)
theorem test_nop : after (exec .nop { st .idle 0 .enc 0 with done := true }) = some (.idle, 0, .enc, true, false) := by decide
-- V-C-2, V-C-12
theorem test_enc : after (exec .enc { st .idle 0 .dec 1 with done := true, err := true }) =
    some (.run, 0, .enc, false, false) := by decide
theorem test_enc_loads : blockAfter (exec .enc { st .idle 0 .dec 1 with S := .ones }) = some b0 := by decide
-- V-C-3
theorem test_dec : after (exec .dec (st .idle 0 .enc 2)) = some (.run, 0, .dec, false, false) := by decide
theorem test_dec_inverts_key :
    keyAfter (exec .dec { st .idle 0 .enc 2 with ports := ⟨false, 2, 0, k0Port⟩ }) = some
    ⟨0x02020202, 0x0D0D0D0D, 0x0C0C0C0C, 0x07070707, 0x0A0A0A0A, 0x0D0D0D0D, 0x0C0C0C0C, 0x03030303, 0x06060606, 0x0D0D0D0D,
     0x0C0C0C0C, 0x0B0B0B0B⟩ := by decide
-- V-C-4
theorem test_rsvd : after (exec .rsvd { st .idle 0 .enc 3 with done := true }) = some (.idle, 0, .enc, true, true) := by decide
-- V-C-5
theorem test_run_enc : blockAfter (exec .runEnc (st .run 0 .enc 0)) = some
    ⟨0xE121213B, 0xCF8CFCCC, 0x8F8CBC8C, 0xE767677B, 0x8F8F4F3F, 0x3F0FCF0F, 0x6CAC6F2C, 0xC79FB7B7, 0x8E2E2E3F, 0x0F0FFB0F,
     0x7FFC7C6C, 0xF7D7D75F⟩ := by decide
-- V-C-6
theorem test_run_enc_last : after (exec .runEnc (st .run 10 .enc 0)) = some (.fin, 11, .enc, false, false) := by decide
-- V-DR, decryption round 0 of V-F1
theorem test_run_dec : blockAfter (exec .runDec { st .run 0 .dec 0 with
      S := ⟨0xCABED10E, 0x72802AA3, 0x50321D3E, 0x3ACF1A2C, 0x82A5218D, 0x85DAFB54, 0x9A633F56, 0xBB3B942A, 0x7D5FA8B8,
            0x3EC1FF6F, 0xD5E71BAF, 0x662FF388⟩,
      K := keyInvert k0 }) = some
    ⟨0xB389F535, 0x2100840A, 0x66AC7B25, 0x0B61D701, 0xD1EDC270, 0x094E288B, 0x3611F230, 0xA0F1161F, 0x25864234, 0xBBA7DD05,
     0xDDF5CD21, 0xB847BAA9⟩ := by decide
-- V-C-9 as the sequencer row sees it
theorem test_run_dec_collides : after (exec .runDec (st .run 4 .dec 1)) = some (.run, 5, .dec, false, true) := by decide
-- V-C-7, V-R2
theorem test_fin_enc : blockAfter (exec .finEnc { st .fin 11 .enc 0 with
      S := ⟨0x9D6F5151, 0xE182D284, 0xBE81368C, 0x65C4E722, 0x3E50BD53, 0x67B7A9B3, 0x7C2E6D61, 0xB474DC4A, 0xB437EB2F,
            0x46116A44, 0xFD573F3E, 0x3DD67B0F⟩ }) = some
    ⟨0xCABED10E, 0x72802AA3, 0x50321D3E, 0x3ACF1A2C, 0x82A5218D, 0x85DAFB54, 0x9A633F56, 0xBB3B942A, 0x7D5FA8B8, 0x3EC1FF6F,
     0xD5E71BAF, 0x662FF388⟩ := by decide
-- V-C-10
theorem test_fin_enc_collides : after (exec .finEnc (st .fin 11 .enc 2)) = some (.idle, 0, .enc, true, true) := by decide
-- V-C-8, V-DR
theorem test_fin_dec : blockAfter (exec .finDec { st .fin 11 .dec 0 with
      S := ⟨0x02020200, 0x0D0D0D00, 0x0C0C0C01, 0x07070701, 0x0A0A0A00, 0x0D0D0D00, 0x0C0C0C00, 0x03030300, 0x06060601,
            0x0D0D0D01, 0x0C0C0C00, 0x0B0B0B00⟩,
      K := keyInvert k0 }) = some b0 := by decide
theorem test_fin_dec_status : after (exec .finDec (st .fin 11 .dec 0)) = some (.idle, 0, .dec, true, false) := by decide
-- R170
theorem test_idle_dispatches : after (exec (.idle 1) (st .idle 0 .dec 1)) = some (.run, 0, .enc, false, false) := by decide
-- R61
theorem test_no_cmd : after (exec .noCmd (st .run 9 .dec 0)) = some (.run, 10, .dec, false, false) := by decide
-- V-C-9
theorem test_collide_enc : after (exec .collideEnc (st .run 4 .enc 1)) = some (.run, 5, .enc, false, true) := by decide
-- V-C-10
theorem test_collide_dec : after (exec .collideDec (st .fin 11 .enc 2)) = some (.idle, 0, .enc, true, true) := by decide
-- P3 edge 7
theorem test_collide_rsvd : after (exec .collideRsvd (st .run 3 .enc 3)) = some (.run, 4, .enc, false, true) := by decide
-- R172
theorem test_unreachable : exec (.unreachable 0) (st .code11 0 .enc 0) = .fault .unreachableSequencer := by rfl
-- V-C-11
theorem test_rst : after (exec (.rst 1) (st .run 7 .dec 1)) = some (.idle, 0, .enc, false, false) := by decide
theorem test_rst_clears_s : blockAfter (exec (.rst 1) (st .run 7 .dec 1)) = some .zero := by decide

/-! ### One step: V-C and P5 -/

theorem test_step_reset_wins : after (step { st .run 2 .enc 2 with ports := ⟨true, 2, b0Port, k1Port⟩ }) =
    some (.idle, 0, .enc, false, false) := by decide
theorem test_step_collision_at_fin : after (step (st .fin 11 .enc 1)) = some (.idle, 0, .enc, true, true) := by decide
theorem test_step_unreachable_round : after (step (st .run 12 .enc 0)) = none := by decide

/-! ### Witnesses: the hypotheses of every statement that has some can be met together -/

theorem test_witness_DecodeAndEncodeAgree : Instr.wf (.rst 3) = true ∧ encode (.rst 3) = (.host, 0b111) := by decide

theorem test_witness_CommandRowOfAnEdge :
    ∀ c : BitVec 2, (st .idle 0 .enc c).ports.rst = false ∧ (st .idle 0 .enc c).ports.cmd = c ∧
      (st .idle 0 .enc c).fsm = .idle ∧ (st .run 3 .dec c).fsm = .run ∧ (st .run 3 .dec c).ports.cmd = c ∧
      (st .fin 11 .enc c).fsm = .fin ∧ (st .fin 11 .enc c).ports.cmd = c ∧ (st .fin 11 .enc c).ports.rst = false ∧
      (st .run 3 .dec c).ports.rst = false := by decide

theorem test_witness_SequencerRowOfAnEdge :
    (st .idle 0 .dec 0).fsm = .idle ∧ (st .run 0 .enc 0).fsm = .run ∧ (st .run 0 .enc 0).mode = .enc ∧
    (st .run 0 .dec 0).fsm = .run ∧ (st .run 0 .dec 0).mode = .dec ∧ (st .fin 11 .enc 0).fsm = .fin ∧
    (st .fin 11 .enc 0).mode = .enc ∧ (st .fin 11 .dec 0).fsm = .fin ∧ (st .fin 11 .dec 0).mode = .dec ∧
    (st .code11 0 .dec 0).fsm = .code11 := by decide

theorem test_witness_RowsOutsideTheirContextAreRefused :
    ({ st .idle 0 .enc 1 with ports := ⟨true, 1, 0, 0⟩ } : State).ports.rst = true ∧ (∀ cc, Instr.enc ≠ .rst cc) ∧
    (∀ m, Instr.enc ≠ .unreachable m) ∧ SeqPos.run 10 ≠ .idle ∧ atPos (.run 10) (st .run 10 .dec 0) ∧
    atPos .idle (st .idle 0 .enc 0) ∧ atPos (.run 0) (st .run 0 .enc 0) ∧ atPos .fin (st .fin 11 .dec 0) ∧
    atPos .fin (st .fin 11 .enc 0) := by decide

theorem test_witness_StepRunsTheDecodedRow :
    decodeEdge (edgeWord (st .idle 0 .enc 0)) = .nop ∧ Instr.wf .nop = true ∧
    exec .nop (st .idle 0 .enc 0) = .next (st .idle 0 .enc 0) ∧
    decodeEdge (edgeWord (st .code11 0 .enc 0)) = .unreachable 0 ∧
    exec (.unreachable 0) (st .code11 0 .enc 0) = .fault .unreachableSequencer :=
  ⟨by decide, rfl, rfl, by decide, rfl⟩

theorem test_witness_CommandAndSequencerRowsAgree :
    (st .run 10 .dec 1).ports.rst = false ∧ decodeEdge (edgeWord (st .run 10 .dec 1)) = .collideEnc ∧
    decodeEdgeSeq (edgeWord (st .run 10 .dec 1)) = .runDec := by decide

theorem test_witness_StepIsTheNextFunction :
    ((st .idle 0 .dec 2).fsm = SeqPos.idle.fsm ∧ (st .idle 0 .dec 2).rnd = SeqPos.idle.rnd) ∧
    ((st .run 10 .dec 2).fsm = (SeqPos.run 10).fsm ∧ (st .run 10 .dec 2).rnd = (SeqPos.run 10).rnd) ∧
    ((st .fin 11 .enc 2).fsm = SeqPos.fin.fsm ∧ (st .fin 11 .enc 2).rnd = SeqPos.fin.rnd) ∧
    ({ st .code11 15 .dec 3 with ports := ⟨true, 3, b0Port, 0⟩ } : State).ports.rst = true := by decide

theorem test_witness_ResetEdgeFromEveryState :
    ({ st .code11 15 .dec 3 with ports := ⟨true, 3, b0Port, 0⟩ } : State).ports.rst = true := rfl

theorem test_witness_ResetEndsARunAndTheNextCommandStartsAFreshOne :
    let s : State := { st .run 5 .enc 0 with ports := ⟨true, 0, 0, 0⟩, lines := [⟨false, 2, b0Port, k1Port⟩] }
    s.ports.rst = true ∧ s.lines = [⟨false, 2, b0Port, k1Port⟩] ∧ (⟨false, 2, b0Port, k1Port⟩ : Inputs).rst = false ∧
    (⟨false, 2, b0Port, k1Port⟩ : Inputs).cmd = Mode.dec.command := by decide

-- NopChangesNothingAndLetsARunGoOn, EncAcceptsAnEncryption, DecAcceptsADecryption, ReservedCommandSetsOnlyErr, IdleRowPerformsTheCommand
theorem test_witness_idle_statements :
    ∀ c : BitVec 2, atPos .idle (st .idle 0 .dec c) ∧ (st .idle 0 .dec c).ports.cmd = c := by decide

-- RunRowsComputeOneRound, NopChangesNothingAndLetsARunGoOn, CollisionSetsErrAndTheRunContinues: first and last round
theorem test_witness_run_statements :
    atPos (.run 0) (st .run 0 .enc 1) ∧ (st .run 0 .enc 1).mode = .enc ∧ atPos (.run 10) (st .run 10 .dec 0) ∧
    (st .run 10 .dec 0).mode = .dec := by decide

-- FinRowsComputeTheFinalTransform, NopChangesNothingAndLetsARunGoOn, CollisionSetsErrAndTheRunContinues
theorem test_witness_fin_statements :
    atPos .fin (st .fin 11 .enc 1) ∧ (st .fin 11 .enc 1).mode = .enc ∧ atPos .fin (st .fin 11 .dec 0) ∧
    (st .fin 11 .dec 0).mode = .dec := by decide

theorem test_witness_StepFaultsExactlyInUnreachableStates :
    (st .code11 0 .enc 0).ports.rst = false ∧ unreachableSeq (st .code11 0 .enc 0) ∧ unreachableSeq (st .run 11 .enc 0) ∧
    unreachableSeq (st .fin 10 .enc 0) ∧ unreachableSeq (st .idle 1 .enc 0) ∧ ¬ unreachableSeq (st .run 10 .enc 0) ∧
    ¬ unreachableSeq (st .fin 11 .enc 0) ∧ ¬ unreachableSeq (st .idle 0 .enc 0) := by decide

-- EveryStepKeepsTheSequencerInvariant, AWellBehavedHostNeverRaisesErr
theorem test_witness_invariant_statements :
    SeqInv (st .run 10 .dec 0) ∧ after (step (st .run 10 .dec 0)) = some (.fin, 11, .dec, false, false) ∧
    wellBehaved (st .run 10 .dec 0) ∧ (st .run 10 .dec 0).err = false ∧ SeqInv (st .idle 0 .enc 1) ∧
    wellBehaved (st .idle 0 .enc 1) := by decide

theorem test_witness_ResetMeetsTheSequencerInvariant :
    ({ st .code11 0 .enc 0 with ports := ⟨true, 0, 0, 0⟩ } : State).ports.rst = true ∧
    after (step { st .code11 0 .enc 0 with ports := ⟨true, 0, 0, 0⟩ }) = some (.idle, 0, .enc, false, false) := by decide

theorem test_witness_NoHostCanStopTheCore : (3 : Nat) ≤ (hold 2 1).length + 1 := by decide

-- NoStepWritesTheRom, DoneChangesOnlyAtFinAcceptanceAndReset, ErrChangesOnlyByErrorAcceptanceAndReset: a step of each kind
theorem test_witness_step_statements :
    [st .fin 11 .dec 0, st .run 0 .dec 3, st .idle 0 .dec 1, st .idle 0 .dec 2, st .idle 0 .dec 3, st .idle 0 .dec 0,
      { st .idle 0 .dec 3 with ports := ⟨true, 3, 0, 0⟩ }].map (fun s => after (step s)) =
    [some (.idle, 0, .dec, true, false), some (.run, 1, .dec, false, true), some (.run, 0, .enc, false, false),
      some (.run, 0, .dec, false, false), some (.idle, 0, .dec, false, true), some (.idle, 0, .dec, false, false),
      some (.idle, 0, .enc, false, false)] := by decide

theorem test_witness_ErrIsStickyUntilAcceptanceOrReset :
    ({ st .idle 0 .dec 1 with err := true } : State).err = true ∧ accepts .enc { st .idle 0 .dec 1 with err := true } ∧
    after (step { st .idle 0 .dec 1 with err := true }) = some (.run, 0, .enc, false, false) ∧
    after (step { st .fin 11 .dec 0 with err := true }) = some (.idle, 0, .dec, true, true) := by decide

theorem test_witness_AnErrorMutatesNothingButErr :
    (st .idle 0 .dec 3).ports.rst = false ∧ ¬ unreachableSeq (st .idle 0 .dec 3) ∧ (st .idle 0 .dec 3).fsm = .idle ∧
    (st .idle 0 .dec 3).ports.cmd = 3 ∧ ¬ unreachableSeq (st .fin 11 .dec 1) ∧ (st .fin 11 .dec 1).fsm ≠ .idle ∧
    (st .fin 11 .dec 1).ports.cmd ≠ 0 ∧ (st .fin 11 .dec 1).ports.rst = false := by decide

-- KeyAndModeChangeOnlyAtAcceptanceAndReset, DataPortsMatterOnlyAtAcceptance
theorem test_witness_acceptance_statements :
    accepts .enc (st .idle 0 .dec 1) ∧ accepts .dec (st .idle 0 .enc 2) ∧ (st .run 5 .enc 1).ports.rst = false ∧
    ¬ accepts .enc (st .run 5 .enc 1) ∧ ¬ accepts .dec (st .run 5 .enc 1) ∧
    after (step (st .run 5 .enc 1)) = some (.run, 6, .enc, false, true) := by decide

theorem test_witness_AnOldKeyNeverReachesTheOutputs :
    (st .idle 0 .dec 0).fsm = .idle ∧ (st .idle 0 .dec 0).rnd = 0 ∧ 1 ≤ (st .idle 0 .dec 0).lines.length + 1 := by decide

-- ARunComputesTheCipher, AResultDependsOnlyOnTheAcceptedInputs (the second state has other registers and colliding lines)
theorem test_witness_run_theorem :
    let s : State := { st .idle 0 .dec 2 with lines := hold 12 0 }
    let u : State := { s with S := .ones, K := .zero, mode := .enc, done := true, lines := hold 13 3 }
    accepts .dec s ∧ noResetFor 12 s ∧ accepts .dec u ∧ noResetFor 12 u ∧ s.ports.blockIn = u.ports.blockIn ∧
    s.ports.keyIn = u.ports.keyIn ∧ s.rom = u.rom := by decide

theorem test_witness_PseudoInstructionsDoWhatTheySay :
    let s : State := st .idle 0 .dec 0
    let w := load 5 7 [.wait 3] s
    let e := load 5 7 [.encrypt b0 k0] s
    let d := load 5 7 [.decrypt b0 k0] s
    s.fsm = .idle ∧ s.rnd = 0 ∧
    drivesAll (Stmt.expand (.wait 3)) ((w.ports :: w.lines).take 3) = true ∧
    drivesAll (Stmt.expand (.encrypt b0 k0)) ((e.ports :: e.lines).take 13) = true ∧
    drivesAll (Stmt.expand (.decrypt b0 k0)) ((d.ports :: d.lines).take 13) = true := by decide

/-- What `load` puts before the machine is what the program says, whatever the program is. -/
theorem drivesAll_load (blockIn keyIn : PortWord) (ls : List Line) :
    drivesAll ls (ls.map (Line.drive blockIn keyIn)) = true := by
  induction ls with
  | nil => rfl
  | cons l ls ih => simp [drivesAll, drives_drive, ih]

theorem test_witness_EncryptThenDecryptAtThePorts :
    ∃ (s : State) (b k : Block), s.fsm = .idle ∧ s.rnd = 0 ∧
      drivesAll (programLines [.encrypt b k, .decrypt (encrypt s.rom b k) k]) ((s.ports :: s.lines).take 26) = true := by
  have h := drivesAll_load 5 7 (programLines [.encrypt b0 k0, .decrypt (encrypt rc1 b0 k0) k0])
  generalize hc : encrypt rc1 b0 k0 = c at h
  refine ⟨load 5 7 [.encrypt b0 k0, .decrypt c k0] (st .idle 0 .enc 0), b0, k0, rfl, rfl, ?_⟩
  have hr : (load 5 7 [.encrypt b0 k0, .decrypt c k0] (st .idle 0 .enc 0)).rom = rc1 := rfl
  rw [hr, hc]
  exact h

theorem test_witness_AHeldCommandStartsASecondRun :
    let s : State := { st .idle 0 .dec 1 with lines := hold 13 1 }
    accepts .enc s ∧ noResetFor 12 s ∧ noResetFor 13 s ∧ ∀ l ∈ s.lines.take 13, l.cmd = Mode.enc.command := by decide

theorem test_witness_RotationsMoveEveryBit : (31 : Nat) < 32 ∧ 64 % 32 = 0 := by decide

theorem test_witness_DiffuseIsLinearAndBitwise :
    ∀ i, ((Block.fill 0x80000000).get i).getLsbD 31 = ((Block.fill 1).get i).getLsbD 0 := by decide

theorem test_witness_DiffuseHasBranchNumberEight :
    Block.single 11 0x80000000 ≠ Block.zero ∧ (0x80000000 : Word) ≠ 0 := by decide

theorem test_witness_SubstituteIsTheThreeBitTable : (3 : Fin 12).val < 4 ∧ (31 : Nat) < 32 := by decide

-- ShiftPassesMoveEveryBit, PackAndUnpackAreInverse
theorem test_witness_bit_positions : (0 : Nat) < 32 ∧ (31 : Nat) < 32 := by decide

end Sys2Proof.Tests
end

section
/-! PROOFS. The scope statements (00_scope.md): a step is `exec` of the row its edge decodes to, and no edge writes the ROM. -/

namespace Sys2Proof.Machine

/-! ### A step in terms of its row -/

/-- A row that answers a next state is followed by the host's next line. -/
theorem step_of_exec_next {s t : State} (h : exec (decodeEdge (edgeWord s)) s = .next t) :
    step s = .next (hostDrives t) := by
  rw [step, h]

theorem step_of_exec_fault {s : State} {f : Fault} (h : exec (decodeEdge (edgeWord s)) s = .fault f) :
    step s = .fault f := by
  rw [step, h]

theorem step_of_exec_refused {s : State} {r : Refusal} (h : exec (decodeEdge (edgeWord s)) s = .refused r) :
    step s = .refused r := by
  rw [step, h]

/-- Settles O6: the three outcomes of the decoded row, the first split by whether a host line is left. -/
theorem stepRunsTheDecodedRow : Obligations.StepRunsTheDecodedRow := by
  unfold Obligations.StepRunsTheDecodedRow
  rintro s i rfl -
  refine ⟨fun t h => ?_, fun f h => step_of_exec_fault h, fun r h => step_of_exec_refused h⟩
  rw [step_of_exec_next h]
  cases hl : t.lines with
  | nil => simp [hostDrives_nil hl, hl]
  | cons l ls => simp [hostDrives_cons hl]

/-! ### The ROM -/

/-- No command writes the ROM. -/
@[simp] theorem command_rom (c : BitVec 2) (s : State) : (command c s).rom = s.rom := by
  obtain rfl | rfl | rfl | rfl := cmd_cases c <;> rfl

/-- Settles O25: each kind of edge is a register transfer that leaves the ROM (R6, R41), and the host drives only ports. -/
theorem noStepWritesTheRom : Obligations.NoStepWritesTheRom := by
  unfold Obligations.NoStepWritesTheRom
  intro s t h
  obtain ⟨-, hs⟩ | ⟨-, -, hs⟩ | ⟨r, -, -, hs⟩ | ⟨-, -, hs⟩ | ⟨-, -, hs⟩ := step_cases s <;> rw [hs] at h <;> cases h
  · rw [hostDrives_rom, resetRegs_rom]
  · rw [hostDrives_rom, command_rom]
  · rw [hostDrives_rom, collide_rom, roundEdge_rom]
  · rw [hostDrives_rom, collide_rom, finalEdge_rom]

end Sys2Proof.Machine
end

section
/-! PROOFS. The sequencer's position (10_state.md R32) along every register transfer, and what the next state of each kind of
edge is. -/

namespace Sys2Proof.Machine

/-! ### The position as the two registers give it -/

/-- The sequencer stands at `p` exactly when `fsm` and `rnd` hold the codes of `p`. -/
theorem seqPos_eq_some {s : State} {p : SeqPos} : seqPos s = some p ↔ s.fsm = p.fsm ∧ s.rnd = p.rnd := by
  cases p with
  | idle => exact seqPos_idle
  | run r => rw [seqPos_run, SeqPos.fsm, SeqPos.rnd, rnd_eq_ofNat_iff]
  | fin => exact seqPos_fin

/-- The position reads `fsm` and `rnd` alone. -/
theorem seqPos_congr {s t : State} (hf : s.fsm = t.fsm) (hr : s.rnd = t.rnd) : seqPos s = seqPos t := by
  unfold seqPos
  rw [hf, hr]

@[simp] theorem seqPos_hostDrives (s : State) : seqPos (hostDrives s) = seqPos s := seqPos_congr (by simp) (by simp)

@[simp] theorem seqPos_raiseErr (s : State) : seqPos (raiseErr s) = seqPos s := rfl

@[simp] theorem seqPos_collide (c : BitVec 2) (s : State) : seqPos (collide c s) = seqPos s :=
  seqPos_congr (by simp) (by simp)

@[simp] theorem seqPos_resetRegs (s : State) : seqPos (resetRegs s) = some .idle := rfl

@[simp] theorem seqPos_accept (m : Mode) (s : State) : seqPos (accept m s) = some (.run 0) := rfl

@[simp] theorem seqPos_finalEdge (m : Mode) (s : State) : seqPos (finalEdge m s) = some .idle := rfl

/-- Where the sequencer stands after `j` main rounds of a run: before round `j`, or in FIN after all eleven (R173). -/
def roundPos (j : Nat) : SeqPos := if h : j < 11 then .run ⟨j, h⟩ else .fin

theorem roundPos_of_lt {j : Nat} (h : j < 11) : roundPos j = .run ⟨j, h⟩ := dif_pos h

/-- A main round moves the sequencer on by one round (R166, R167). -/
theorem seqPos_roundEdge {m : Mode} {r : Fin 11} {s : State} (h : seqPos s = some (.run r)) :
    seqPos (roundEdge m r s) = some (roundPos (r.val + 1)) := by
  have hr : s.rnd.toNat = r.val := (seqPos_run.1 h).2
  by_cases h10 : s.rnd = 10
  · have : r = 10 := (rnd_eq_ten_iff hr).1 h10
    subst this
    exact seqPos_fin.2 (by simp [h10])
  · have hlt : r.val + 1 < 11 := by
      have : r.val ≠ 10 := fun e => h10 ((rnd_eq_ten_iff hr).2 (Fin.ext e))
      omega
    rw [roundPos_of_lt hlt, seqPos_run, roundEdge_fsm, roundEdge_rnd, if_neg h10, if_neg h10, BitVec.toNat_add, hr]
    exact ⟨rfl, Nat.mod_eq_of_lt (by simp; omega)⟩

/-! ### The four commands in IDLE -/

theorem command_zero (s : State) : command 0b00 s = s := rfl

theorem command_accept (m : Mode) (s : State) : command m.command s = accept m s := by
  cases m <;> rfl

theorem command_reserved (s : State) : command 0b11 s = raiseErr s := rfl

/-- A command asks for a run, or it is 00 or 11 (R60). -/
theorem cmd_asks_run_or_not (c : BitVec 2) : (∃ m : Mode, c = m.command) ∨ c = 0b00 ∨ c = 0b11 := by
  obtain h | h | h | h := cmd_cases c
  · exact .inr (.inl h)
  · exact .inl ⟨.enc, h⟩
  · exact .inl ⟨.dec, h⟩
  · exact .inr (.inr h)

/-- The two commands that ask for a run (R60). -/
theorem cmd_eq_command {c : BitVec 2} (h : c = 0b01 ∨ c = 0b10) : ∃ m : Mode, c = m.command :=
  h.elim (fun h => ⟨.enc, h⟩) (fun h => ⟨.dec, h⟩)

/-! ### The next state of each kind of edge -/

/-- All that a step can answer as a next state. -/
theorem step_next_cases {s t : State} (h : step s = .next t) :
    (s.ports.rst = true ∧ t = hostDrives (resetRegs s)) ∨
    (s.ports.rst = false ∧ seqPos s = some .idle ∧ t = hostDrives (command s.ports.cmd s)) ∨
    (∃ r, s.ports.rst = false ∧ seqPos s = some (.run r) ∧
      t = hostDrives (collide s.ports.cmd (roundEdge s.mode r s))) ∨
    (s.ports.rst = false ∧ seqPos s = some .fin ∧ t = hostDrives (collide s.ports.cmd (finalEdge s.mode s))) := by
  obtain ⟨hr, hs⟩ | ⟨hr, hp, hs⟩ | ⟨r, hr, hp, hs⟩ | ⟨hr, hp, hs⟩ | ⟨-, -, hs⟩ := step_cases s <;>
    rw [hs] at h <;> cases h
  · exact .inl ⟨hr, rfl⟩
  · exact .inr (.inl ⟨hr, hp, rfl⟩)
  · exact .inr (.inr (.inl ⟨r, hr, hp, rfl⟩))
  · exact .inr (.inr (.inr ⟨hr, hp, rfl⟩))

/-- An edge with `rst = 0` that answers a next state found the sequencer at a legal position. -/
theorem seqPos_of_step_next {s t : State} (h : step s = .next t) (hr : s.ports.rst = false) :
    ∃ p, seqPos s = some p ∧ s.fsm = p.fsm := by
  cases hp : seqPos s with
  | none => rw [step_none hr hp] at h; cases h
  | some p => exact ⟨p, rfl, (seqPos_eq_some.1 hp).1⟩

theorem step_next_rst {s t : State} (h : step s = .next t) (hr : s.ports.rst = true) :
    t = hostDrives (resetRegs s) := by
  rw [step_rst hr] at h; cases h; rfl

theorem step_next_idle {s t : State} (h : step s = .next t) (hr : s.ports.rst = false) (hf : s.fsm = .idle) :
    t = hostDrives (command s.ports.cmd s) := by
  obtain ⟨p, hp, hpf⟩ := seqPos_of_step_next h hr
  cases p <;> rw [hf] at hpf <;> cases hpf
  rw [step_idle hr hp] at h; cases h; rfl

theorem step_next_run {s t : State} (h : step s = .next t) (hr : s.ports.rst = false) (hf : s.fsm = .run) :
    ∃ r, t = hostDrives (collide s.ports.cmd (roundEdge s.mode r s)) := by
  obtain ⟨p, hp, hpf⟩ := seqPos_of_step_next h hr
  cases p <;> rw [hf] at hpf <;> cases hpf
  rw [step_run hr hp] at h; cases h; exact ⟨_, rfl⟩

theorem step_next_fin {s t : State} (h : step s = .next t) (hr : s.ports.rst = false) (hf : s.fsm = .fin) :
    t = hostDrives (collide s.ports.cmd (finalEdge s.mode s)) := by
  obtain ⟨p, hp, hpf⟩ := seqPos_of_step_next h hr
  cases p <;> rw [hf] at hpf <;> cases hpf
  rw [step_fin hr hp] at h; cases h; rfl

/-- An edge from a legal position answers a next state. -/
theorem step_answers_next {s : State} {p : SeqPos} (hp : seqPos s = some p) : ∃ t, step s = .next t := by
  cases hr : s.ports.rst with
  | true => exact ⟨_, step_rst hr⟩
  | false =>
    cases p with
    | idle => exact ⟨_, step_idle hr hp⟩
    | run r => exact ⟨_, step_run hr hp⟩
    | fin => exact ⟨_, step_fin hr hp⟩

/-- An acceptance edge (R191, R192). -/
theorem step_accepts {m : Mode} {s : State} (h : accepts m s) : step s = .next (hostDrives (accept m s)) := by
  obtain ⟨⟨hr, hf, hn⟩, hc⟩ := h
  rw [step_idle hr (seqPos_idle.2 ⟨hf, hn⟩), hc, command_accept]

end Sys2Proof.Machine
end

section
/-! PROOFS. The invariant of R32: what every register transfer of an edge keeps, every step keeps, and every run keeps. -/

namespace Sys2Proof.Machine

/-- R32 in two parts: the sequencer is at a legal position, and `done` holds only in IDLE. The clause about `busy` follows from
the position. -/
theorem seqInv_iff {s : State} : SeqInv s ↔ (∃ p, seqPos s = some p) ∧ (s.done = true → s.fsm = .idle) := by
  constructor
  · rintro ⟨hidle, hrun, hfin, hcode, hdone, -⟩
    refine ⟨?_, hdone⟩
    cases hf : s.fsm with
    | idle => exact ⟨.idle, seqPos_idle.2 ⟨hf, hidle hf⟩⟩
    | run => exact ⟨.run ⟨s.rnd.toNat, Nat.lt_succ_of_le (hrun hf)⟩, seqPos_run.2 ⟨hf, rfl⟩⟩
    | fin => exact ⟨.fin, seqPos_fin.2 ⟨hf, hfin hf⟩⟩
    | code11 => exact absurd hf hcode
  · rintro ⟨⟨p, hp⟩, hdone⟩
    cases p with
    | idle => obtain ⟨hf, hn⟩ := seqPos_idle.1 hp; simp [SeqInv, busy, hf, hn]
    | run r =>
      obtain ⟨hf, hn⟩ := seqPos_run.1 hp
      have hr : s.rnd.toNat ≤ 10 := by omega
      simpa [SeqInv, busy, hf, hr] using hdone
    | fin => obtain ⟨hf, hn⟩ := seqPos_fin.1 hp; simpa [SeqInv, busy, hf, hn] using hdone

/-- A state at a legal position that is not `done`. -/
theorem seqInv_of_not_done {s : State} {p : SeqPos} (hp : seqPos s = some p) (hd : s.done = false) : SeqInv s :=
  seqInv_iff.2 ⟨⟨p, hp⟩, by simp [hd]⟩

/-- In RUN and FIN the invariant says that `done` is 0. -/
theorem done_eq_false_of_seqInv {s : State} (h : SeqInv s) (hf : s.fsm ≠ .idle) : s.done = false :=
  Bool.eq_false_iff.2 (mt (seqInv_iff.1 h).2 hf)

theorem seqInv_of_idle {s : State} (hp : seqPos s = some .idle) : SeqInv s :=
  seqInv_iff.2 ⟨⟨.idle, hp⟩, fun _ => (seqPos_idle.1 hp).1⟩

/-- The host's drive and a collision touch none of the registers that R32 speaks of. -/
theorem seqInv_hostDrives {s : State} (h : SeqInv s) : SeqInv (hostDrives s) :=
  seqInv_iff.2 (by simpa using seqInv_iff.1 h)

theorem seqInv_collide {s : State} (c : BitVec 2) (h : SeqInv s) : SeqInv (collide c s) :=
  seqInv_iff.2 (by simpa using seqInv_iff.1 h)

theorem seqInv_resetRegs (s : State) : SeqInv (resetRegs s) := seqInv_of_idle (seqPos_resetRegs s)

theorem seqInv_command {s : State} (c : BitVec 2) (hp : seqPos s = some .idle) : SeqInv (command c s) := by
  obtain ⟨m, rfl⟩ | rfl | rfl := cmd_asks_run_or_not c
  · rw [command_accept]; exact seqInv_of_not_done (seqPos_accept m s) rfl
  · rw [command_zero]; exact seqInv_of_idle hp
  · rw [command_reserved]; exact seqInv_of_idle hp

theorem seqInv_roundEdge {s : State} {r : Fin 11} (m : Mode) (h : SeqInv s) (hp : seqPos s = some (.run r)) :
    SeqInv (roundEdge m r s) := by
  have hf : s.fsm = .run := (seqPos_run.1 hp).1
  have hd : s.done = false := done_eq_false_of_seqInv h (by simp [hf])
  exact seqInv_of_not_done (seqPos_roundEdge hp) hd

theorem seqInv_finalEdge (m : Mode) (s : State) : SeqInv (finalEdge m s) := seqInv_of_idle (seqPos_finalEdge m s)

/-- Settles O22: each kind of edge is a register transfer that keeps R32, a collision and the host's drive keep it too. -/
theorem everyStepKeepsTheSequencerInvariant : Obligations.EveryStepKeepsTheSequencerInvariant := by
  unfold Obligations.EveryStepKeepsTheSequencerInvariant
  intro s t hs h
  obtain ⟨-, rfl⟩ | ⟨-, hp, rfl⟩ | ⟨r, -, hp, rfl⟩ | ⟨-, -, rfl⟩ := step_next_cases h
  · exact seqInv_hostDrives (seqInv_resetRegs s)
  · exact seqInv_hostDrives (seqInv_command s.ports.cmd hp)
  · exact seqInv_hostDrives (seqInv_collide s.ports.cmd (seqInv_roundEdge s.mode hs hp))
  · exact seqInv_hostDrives (seqInv_collide s.ports.cmd (seqInv_finalEdge s.mode s))

/-- Settles O23: the registers of `State.reset` are those of a reset edge. -/
theorem resetMeetsTheSequencerInvariant : Obligations.ResetMeetsTheSequencerInvariant := by
  unfold Obligations.ResetMeetsTheSequencerInvariant
  refine ⟨seqInv_resetRegs State.reset, fun s t hr h => ?_⟩
  rw [step_next_rst h hr]
  exact seqInv_hostDrives (seqInv_resetRegs s)

/-- From a state that meets R32 every run, however long, answers a next state, and that meets it again. -/
theorem run_of_seqInv {s : State} (hs : SeqInv s) (n : Nat) : ∃ t, run n s = .next t ∧ SeqInv t := by
  induction n generalizing s with
  | zero => exact ⟨s, rfl, hs⟩
  | succ n ih =>
    obtain ⟨p, hp⟩ := (seqInv_iff.1 hs).1
    obtain ⟨u, hu⟩ := step_answers_next hp
    rw [run_succ hu]
    exact ih (everyStepKeepsTheSequencerInvariant s u hs hu)

/-- Settles O24: R32 holds after reset whatever the ports and the later lines are, and every run keeps it. -/
theorem noHostCanStopTheCore : Obligations.NoHostCanStopTheCore := by
  unfold Obligations.NoHostCanStopTheCore
  intro p ls n _
  have hreset : SeqInv { State.reset with ports := p, lines := ls } := seqInv_of_idle rfl
  exact run_of_seqInv hreset n

end Sys2Proof.Machine
end

section
/-! PROOFS. A run from its acceptance edge (45_round_schedule.md R173): where the core stands after each edge, and the result. -/

namespace Sys2Proof.Machine

/-- `t` stands after `j` main rounds of the run in direction `m` that the coming edge of `s` accepts. -/
structure RunState (m : Mode) (s : State) (j : Nat) (t : State) : Prop where
  pos : seqPos t = some (roundPos j)
  mode : t.mode = m
  key : t.K = workingKey m (unpack s.ports.keyIn)
  block : t.S = afterRounds s.rom m (unpack s.ports.blockIn) (workingKey m (unpack s.ports.keyIn)) j
  rom : t.rom = s.rom
  notDone : t.done = false

/-- The host holds `rst = 0` at the coming edge and at the next `n`. -/
abbrev noResetThrough (n : Nat) (s : State) : Prop := s.ports.rst = false ∧ noResetFor n s

/-- An edge that leaves the host's lines alone is followed by the first of them. -/
theorem noResetThrough_hostDrives {n : Nat} {s t : State} (hst : t.lines = s.lines) (h : noResetFor (n + 1) s) :
    noResetThrough n (hostDrives t) := by
  obtain ⟨hlen, hrst⟩ := h
  rw [← hst] at hlen hrst
  cases hl : t.lines with
  | nil => simp [hl] at hlen
  | cons l ls =>
    simp only [hl, List.length_cons, List.take_succ_cons, List.forall_mem_cons] at hlen hrst
    rw [hostDrives_cons hl]
    exact ⟨hrst.1, Nat.le_of_succ_le_succ hlen, hrst.2⟩

/-- The acceptance edge starts the run before round 0. -/
theorem runState_accept (m : Mode) (s : State) : RunState m s 0 (hostDrives (accept m s)) where
  pos := seqPos_hostDrives (accept m s)
  mode := by simp
  key := by simp [keyOperand]
  block := by simp [blockOperand]
  rom := by simp
  notDone := by simp

/-- A main-round edge, whatever the command: one more round. -/
theorem RunState.round {m : Mode} {s t : State} {j : Nat} (h : RunState m s j t) (hj : j < 11)
    (c : BitVec 2) : RunState m s (j + 1) (hostDrives (collide c (roundEdge t.mode ⟨j, hj⟩ t))) where
  pos := by
    have hp := h.pos
    rw [roundPos_of_lt hj] at hp
    simp [seqPos_roundEdge hp]
  mode := by simp [h.mode]
  key := by simp [h.key]
  block := by
    have hsucc := afterRounds_succ s.rom m (unpack s.ports.blockIn) (workingKey m (unpack s.ports.keyIn)) ⟨j, hj⟩
    simp [h.mode, h.key, h.block, h.rom, hsucc]
  rom := by simp [h.rom]
  notDone := by simp [h.notDone]

/-- `j + 1` edges from the acceptance edge on, with no reset among them: `j` main rounds are computed. -/
theorem run_reaches_runState {m : Mode} {s : State} (ha : accepts m s) (hn : noResetFor 12 s) {j : Nat} (hj : j ≤ 11) :
    ∃ t, run (j + 1) s = .next t ∧ RunState m s j t ∧ noResetThrough (11 - j) t := by
  induction j with
  | zero =>
    exact ⟨_, run_succ (step_accepts ha) 0, runState_accept m s, noResetThrough_hostDrives (accept_lines m s) hn⟩
  | succ j ih =>
    obtain ⟨t, hrun, ht, hrst, hlines⟩ := ih (by omega)
    have hpos := ht.pos
    rw [roundPos_of_lt hj] at hpos
    have hlast : run (j + 1 + 1) s = run 0 _ := (run_add hrun 1).trans (run_succ (step_run hrst hpos) 0)
    rw [show 11 - j = 11 - (j + 1) + 1 by omega] at hlines
    exact ⟨_, hlast, ht.round hj t.ports.cmd, noResetThrough_hostDrives (by simp) hlines⟩

/-- Thirteen edges from the acceptance edge on, with no reset among them: the run has ended with its result. -/
theorem run_result {m : Mode} {s : State} (ha : accepts m s) (hn : noResetFor 12 s) :
    ∃ t, run 13 s = .next t ∧ seqPos t = some .idle ∧ t.done = true ∧
      t.S = cipher s.rom m (unpack s.ports.blockIn) (workingKey m (unpack s.ports.keyIn)) := by
  obtain ⟨t, hrun, ht, hrst, -⟩ := run_reaches_runState ha hn (j := 11) le_rfl
  have hlast : run 13 s = run 0 _ := (run_add hrun 1).trans (run_succ (step_fin hrst ht.pos) 0)
  exact ⟨_, hlast, by simp, by simp, by simp [ht.mode, ht.key, ht.block, ht.rom, cipher]⟩

/-- Settles O34: both runs end with `cipher` of the same ROM, direction, Block and Key. -/
theorem aResultDependsOnlyOnTheAcceptedInputs : Obligations.AResultDependsOnlyOnTheAcceptedInputs := by
  unfold Obligations.AResultDependsOnlyOnTheAcceptedInputs
  intro m s₁ s₂ ha₁ ha₂ hblock hkey hrom hn₁ hn₂
  obtain ⟨t₁, hrun₁, -, hdone₁, hS₁⟩ := run_result ha₁ hn₁
  obtain ⟨t₂, hrun₂, -, hdone₂, hS₂⟩ := run_result ha₂ hn₂
  refine ⟨t₁, t₂, hrun₁, hrun₂, hdone₁, hdone₂, ?_⟩
  rw [blockOut, blockOut, hS₁, hS₂, hblock, hkey, hrom]

end Sys2Proof.Machine
end

section
/-! PROOFS. When the status bits, `K` and `mode` change (10_state.md R21, R26, R27, R28). -/

namespace Sys2Proof.Machine

/-- The commands 00 and 11 keep `K`, `mode` and `done` (R190, R193). -/
theorem command_keeps {c : BitVec 2} (h : c = 0b00 ∨ c = 0b11) (s : State) :
    (command c s).K = s.K ∧ (command c s).mode = s.mode ∧ (command c s).done = s.done := by
  obtain rfl | rfl := h <;> exact ⟨rfl, rfl, rfl⟩

/-- Settles O26: a clause for each kind of edge. -/
theorem doneChangesOnlyAtFinAcceptanceAndReset : Obligations.DoneChangesOnlyAtFinAcceptanceAndReset := by
  unfold Obligations.DoneChangesOnlyAtFinAcceptanceAndReset
  intro s t h
  refine ⟨rfl, fun hr => ?_, fun hr => ⟨fun hf => ?_, fun hf hc => ?_, fun hf => ?_, fun hf hc => ?_⟩⟩
  · simp [step_next_rst h hr]
  · simp [step_next_fin h hr hf]
  · obtain ⟨m, hm⟩ := cmd_eq_command hc
    simp [step_next_idle h hr hf, hm, command_accept]
  · obtain ⟨r, rfl⟩ := step_next_run h hr hf
    simp
  · obtain ⟨-, -, hdone⟩ := command_keeps hc s
    rw [step_next_idle h hr hf, hostDrives_done, hdone]

/-- What an edge in RUN or FIN does to `err`: a command sets it (R194). -/
theorem step_err_busy {s t : State} (h : step s = .next t) (hr : s.ports.rst = false)
    (hf : s.fsm = .run ∨ s.fsm = .fin) : t.err = (s.err || s.ports.cmd != 0) := by
  obtain hf | hf := hf
  · obtain ⟨r, rfl⟩ := step_next_run h hr hf
    simp
  · simp [step_next_fin h hr hf]

/-- Settles O27: a clause for each kind of edge; with `cmd = 00` each of the three sequencer states keeps `err`. -/
theorem errChangesOnlyByErrorAcceptanceAndReset : Obligations.ErrChangesOnlyByErrorAcceptanceAndReset := by
  unfold Obligations.ErrChangesOnlyByErrorAcceptanceAndReset
  intro s t h
  refine ⟨rfl, fun hr => ?_, fun hr => ⟨fun hf hc => ?_, fun hf hc => ?_, fun hf hc => ?_, fun hc => ?_⟩⟩
  · simp [step_next_rst h hr]
  · rw [step_next_idle h hr hf, hc, command_reserved, hostDrives_err, raiseErr_err]
  · rw [step_err_busy h hr hf, bne_iff_ne.2 hc, Bool.or_true]
  · obtain ⟨m, hm⟩ := cmd_eq_command hc
    simp [step_next_idle h hr hf, hm, command_accept]
  · obtain ⟨p, -, hf⟩ := seqPos_of_step_next h hr
    cases p with
    | idle => rw [step_next_idle h hr hf, hc, command_zero, hostDrives_err]
    | run r => simp [step_err_busy h hr (.inl hf), hc]
    | fin => simp [step_err_busy h hr (.inr hf), hc]

/-- Settles O31: an acceptance edge is `accept`; at any other edge with `rst = 0` no register transfer writes `K` or `mode`. -/
theorem keyAndModeChangeOnlyAtAcceptanceAndReset : Obligations.KeyAndModeChangeOnlyAtAcceptanceAndReset := by
  unfold Obligations.KeyAndModeChangeOnlyAtAcceptanceAndReset
  intro s t h
  refine ⟨fun m ha => ?_, fun hr hna => ?_⟩
  · rw [step_accepts ha] at h
    cases h
    simp [keyOperand]
  · obtain ⟨hrst, -⟩ | ⟨-, hp, rfl⟩ | ⟨r, -, -, rfl⟩ | ⟨-, -, rfl⟩ := step_next_cases h
    · simp [hr] at hrst
    · obtain ⟨m, hm⟩ | hc := cmd_asks_run_or_not s.ports.cmd
      · exact absurd ⟨⟨hr, seqPos_idle.1 hp⟩, hm⟩ (hna m)
      · obtain ⟨hK, hmode, -⟩ := command_keeps hc s
        simp [hK, hmode]
    · simp
    · simp

end Sys2Proof.Machine
end

section
/-! PROOFS. What an earlier run left in `K` and `mode` is not observable (10_state.md R21). -/

namespace Sys2Proof.Machine

/-- The state with another working key and direction left in the registers. -/
def withOldKey (k : Block) (m : Mode) (s : State) : State := { s with K := k, mode := m }

theorem outputs_withOldKey (k : Block) (m : Mode) (s : State) : outputs (withOldKey k m s) = outputs s := rfl

theorem hostDrives_withOldKey (k : Block) (m : Mode) (s : State) :
    hostDrives (withOldKey k m s) = withOldKey k m (hostDrives s) := by
  unfold hostDrives withOldKey
  cases s.lines <;> rfl

/-- An edge in IDLE either forgets the old key, since reset and acceptance overwrite it, or keeps it and stays in IDLE. -/
theorem step_idle_withOldKey (k : Block) (m : Mode) {s : State} (hp : seqPos s = some .idle) :
    step (withOldKey k m s) = step s ∨
    ∃ t, step s = .next t ∧ seqPos t = some .idle ∧ step (withOldKey k m s) = .next (withOldKey k m t) := by
  cases hr : s.ports.rst with
  | true => exact .inl ((step_rst (s := withOldKey k m s) hr).trans (step_rst hr).symm)
  | false =>
    have hstep := step_idle hr hp
    have hstep' : step (withOldKey k m s) = .next (hostDrives (command s.ports.cmd (withOldKey k m s))) :=
      step_idle (s := withOldKey k m s) hr hp
    obtain ⟨m', hc⟩ | hc | hc := cmd_asks_run_or_not s.ports.cmd <;> rw [hc] at hstep hstep'
    · rw [command_accept] at hstep hstep'
      exact .inl (hstep'.trans hstep.symm)
    · rw [command_zero] at hstep hstep'
      exact .inr ⟨_, hstep, by simpa using hp, by rw [hstep', hostDrives_withOldKey]⟩
    · rw [command_reserved] at hstep hstep'
      exact .inr ⟨_, hstep, by simpa using hp, by rw [hstep', ← hostDrives_withOldKey]; rfl⟩

/-- Runs from IDLE show the same outputs whatever the old key is. -/
theorem run_withOldKey (k : Block) (m : Mode) (n : Nat) {s : State} (hp : seqPos s = some .idle) :
    ∃ t u, run n s = .next t ∧ run n (withOldKey k m s) = .next u ∧ outputs t = outputs u := by
  induction n generalizing s with
  | zero => exact ⟨s, withOldKey k m s, rfl, rfl, (outputs_withOldKey k m s).symm⟩
  | succ n ih =>
    obtain hforget | ⟨t, ht, hpt, ht'⟩ := step_idle_withOldKey k m hp
    · obtain ⟨t, ht, -⟩ := run_of_seqInv (seqInv_of_idle hp) (n + 1)
      have ht' : run (n + 1) (withOldKey k m s) = .next t := by rw [run, hforget]; exact ht
      exact ⟨t, t, ht, ht', rfl⟩
    · rw [run_succ ht, run_succ ht']
      exact ih hpt

/-- Settles O33: two runs from IDLE that differ in the old key are equal once it is overwritten, and show only `S` and the status
bits before. -/
theorem anOldKeyNeverReachesTheOutputs : Obligations.AnOldKeyNeverReachesTheOutputs := by
  unfold Obligations.AnOldKeyNeverReachesTheOutputs
  intro s k m n hf hn _
  exact run_withOldKey k m n (seqPos_idle.2 ⟨hf, hn⟩)

end Sys2Proof.Machine
end

section
/-! PROOFS. The layout of a Block on a 384-bit port (20_memory.md R43). -/

namespace Sys2Proof.Machine

/-- The words of `b` at the indices in `is`, each in its place on the port. -/
def packWords (is : List (Fin 12)) (b : Block) : PortWord :=
  is.foldr (fun i acc => ((b.get i).setWidth 384 <<< portBit i) ||| acc) 0

theorem pack_eq_packWords (b : Block) : pack b = packWords wordIndices b := rfl

theorem packWords_cons (k : Fin 12) (is : List (Fin 12)) (b : Block) :
    packWords (k :: is) b = ((b.get k).setWidth 384 <<< portBit k) ||| packWords is b := rfl

/-- In the place of word `i` stand the bits of that word if it was packed, and zeros if it was not. -/
theorem packWords_getLsbD (is : List (Fin 12)) (b : Block) (i : Fin 12) {j : Nat} (hj : j < 32) :
    (packWords is b).getLsbD (portBit i + j) = (decide (i ∈ is) && (b.get i).getLsbD j) := by
  induction is with
  | nil => simp [packWords]
  | cons k is ih =>
    rw [packWords_cons, BitVec.getLsbD_or, wordOnPort_getLsbD _ _ _ hj, ih]
    by_cases hk : k = i
    · subst hk
      simp
    · simp [hk, Ne.symm hk]

theorem mem_wordIndices (i : Fin 12) : i ∈ wordIndices := by
  revert i; decide

/-- Bit `j` of word `i` is port bit `portBit i + j`, that is `352 - 32*i + j`. -/
theorem pack_getLsbD (b : Block) (i : Fin 12) {j : Nat} (hj : j < 32) :
    (pack b).getLsbD (portBit i + j) = (b.get i).getLsbD j := by
  simp [pack_eq_packWords, packWords_getLsbD, hj, mem_wordIndices]

theorem unpack_getLsbD (v : PortWord) (i : Fin 12) {j : Nat} (hj : j < 32) :
    ((unpack v).get i).getLsbD j = v.getLsbD (portBit i + j) := by
  simp [hj]

/-- Every port bit is a bit of one of the twelve words. -/
theorem exists_portBit_add {n : Nat} (hn : n < 384) : ∃ (i : Fin 12) (j : Nat), j < 32 ∧ n = portBit i + j := by
  refine ⟨⟨11 - n / 32, by omega⟩, n % 32, Nat.mod_lt n (by decide), ?_⟩
  simp only [portBit]
  omega

theorem unpack_pack (b : Block) : unpack (pack b) = b :=
  Block.ext_get fun i => BitVec.eq_of_getLsbD_eq fun j hj => by
    rw [unpack_getLsbD _ _ hj, pack_getLsbD _ _ hj]

theorem pack_unpack (v : PortWord) : pack (unpack v) = v := by
  refine BitVec.eq_of_getLsbD_eq fun n hn => ?_
  obtain ⟨i, j, hj, rfl⟩ := exists_portBit_add hn
  rw [pack_getLsbD _ _ hj, unpack_getLsbD _ _ hj]

/-- Settles O52: both round trips bit by bit, from the position of each word's bits on the port. -/
theorem packAndUnpackAreInverse : Obligations.PackAndUnpackAreInverse := by
  unfold Obligations.PackAndUnpackAreInverse
  exact ⟨unpack_pack, pack_unpack, fun b i _ hj => pack_getLsbD b i hj⟩

end Sys2Proof.Machine
end

section
/-! PROOFS. The data ports matter only at an acceptance edge (20_memory.md R46): every other register transfer commutes with
driving them differently. -/

namespace Sys2Proof.Machine

/-- The state in which the host drives other values on the data ports at the coming edge. -/
def withDataPorts (b k : PortWord) (s : State) : State := { s with ports := { s.ports with blockIn := b, keyIn := k } }

section
variable (b k : PortWord)

theorem resetRegs_withDataPorts (s : State) :
    resetRegs (withDataPorts b k s) = withDataPorts b k (resetRegs s) := rfl

theorem roundEdge_withDataPorts (m : Mode) (r : Fin 11) (s : State) :
    roundEdge m r (withDataPorts b k s) = withDataPorts b k (roundEdge m r s) := rfl

theorem finalEdge_withDataPorts (m : Mode) (s : State) :
    finalEdge m (withDataPorts b k s) = withDataPorts b k (finalEdge m s) := rfl

theorem collide_withDataPorts (c : BitVec 2) (s : State) :
    collide c (withDataPorts b k s) = withDataPorts b k (collide c s) := by
  unfold collide; split <;> rfl

/-- The commands 00 and 11 read no operand (R190, R193). -/
theorem command_withDataPorts {c : BitVec 2} (h : c = 0b00 ∨ c = 0b11) (s : State) :
    command c (withDataPorts b k s) = withDataPorts b k (command c s) := by
  obtain rfl | rfl := h <;> rfl

/-- The host's next drive touches no register, whatever stands on the data ports before it. -/
theorem sameRegs_hostDrives_of_eq_withDataPorts {t u : State} (h : u = withDataPorts b k t) :
    sameRegs (hostDrives t) (hostDrives u) := by
  subst h
  simp [sameRegs, withDataPorts]

/-- An edge in IDLE that accepts no command carries 00 or 11. -/
theorem cmd_of_not_accepts {s : State} (hr : s.ports.rst = false) (hp : seqPos s = some .idle)
    (hna : ∀ m, ¬ accepts m s) : s.ports.cmd = 0b00 ∨ s.ports.cmd = 0b11 :=
  (cmd_asks_run_or_not s.ports.cmd).resolve_left fun ⟨m, hm⟩ => hna m ⟨⟨hr, seqPos_idle.1 hp⟩, hm⟩

/-- At an edge that is no acceptance edge, other data ports lead to the same registers. -/
theorem step_withDataPorts {s t : State} (hna : ∀ m, ¬ accepts m s) (h : step s = .next t) :
    ∃ u, step (withDataPorts b k s) = .next u ∧ sameRegs t u := by
  obtain ⟨hr, rfl⟩ | ⟨hr, hp, rfl⟩ | ⟨r, hr, hp, rfl⟩ | ⟨hr, hp, rfl⟩ := step_next_cases h
  · exact ⟨_, step_rst (s := withDataPorts b k s) hr,
      sameRegs_hostDrives_of_eq_withDataPorts b k (resetRegs_withDataPorts b k s)⟩
  · have hc : s.ports.cmd = 0b00 ∨ s.ports.cmd = 0b11 := cmd_of_not_accepts hr hp hna
    exact ⟨_, step_idle (s := withDataPorts b k s) hr hp,
      sameRegs_hostDrives_of_eq_withDataPorts b k (command_withDataPorts b k hc s)⟩
  · refine ⟨_, step_run (s := withDataPorts b k s) hr hp, sameRegs_hostDrives_of_eq_withDataPorts b k ?_⟩
    rw [roundEdge_withDataPorts, collide_withDataPorts]
    rfl
  · refine ⟨_, step_fin (s := withDataPorts b k s) hr hp, sameRegs_hostDrives_of_eq_withDataPorts b k ?_⟩
    rw [finalEdge_withDataPorts, collide_withDataPorts]
    rfl

end

/-- Settles O32: reset, a main round, the final transform and the commands 00 and 11 read neither data port. -/
theorem dataPortsMatterOnlyAtAcceptance : Obligations.DataPortsMatterOnlyAtAcceptance := by
  unfold Obligations.DataPortsMatterOnlyAtAcceptance
  exact fun _ _ b k hna h => step_withDataPorts b k hna h

end Sys2Proof.Machine
end

section
/-! PROOFS. The decoder and the encoder (30_encoding.md R60 to R67): in each encoding space they are inverse to each other. -/

namespace Sys2Proof

/-! ### From a row to its byte and back -/

/-- The encoding of a row decodes to the row, in the row's own space. -/
theorem decode_encode (i : Instr) : decode (encode i).1 (encode i).2 = .ok i := by
  cases i with
  | nop | enc | dec | rsvd => rfl
  | noCmd | collideEnc | collideDec | collideRsvd => rfl
  | runEnc | runDec | finEnc | finDec => rfl
  | idle m => revert m; decide
  | unreachable m => revert m; decide
  | rst cc => revert cc; decide

/-! ### From a byte to its row and back -/

/-- A byte with no bit above the lowest `n` is its lowest `n` bits (R66). -/
theorem setWidth_lowBits {b : BitVec 8} {n m : Nat} (hnm : n + m = 8) (h : b.extractLsb' n m = 0) :
    (b.extractLsb' 0 n).setWidth 8 = b := by
  refine BitVec.eq_of_getLsbD_eq fun j hj => ?_
  by_cases hjn : j < n
  · simp [hj, hjn]
  · have hhigh : (b.extractLsb' n m).getLsbD (j - n) = false := by simp [h]
    rw [BitVec.getLsbD_extractLsb', Nat.add_sub_cancel' (Nat.le_of_not_lt hjn)] at hhigh
    have hb : b.getLsbD j = false := by simpa [show j - n < m by omega] using hhigh
    simp [hjn, hb]

theorem encode_decodeCmdIdle (c : BitVec 2) : encode (decodeCmdIdle c) = (.cmdIdle, c.setWidth 8) := by
  revert c; decide

theorem encode_decodeCmdBusy (c : BitVec 2) : encode (decodeCmdBusy c) = (.cmdBusy, c.setWidth 8) := by
  revert c; decide

theorem encode_decodeSeq (v : BitVec 3) : encode (decodeSeq v) = (.seq, v.setWidth 8) := by
  revert v; decide

/-- The HOST format's only row is `1cc` (R67). -/
theorem encode_of_decodeHost {v : BitVec 3} {i : Instr} (h : decodeHost v = .ok i) : encode i = (.host, v.setWidth 8) := by
  unfold decodeHost at h
  split at h
  · cases h; revert v; decide
  · cases h

/-- A byte that decodes to a row in a space is the row's encoding in that space. -/
theorem encode_of_decode {sp : Space} {b : BitVec 8} {i : Instr} (h : decode sp b = .ok i) : encode i = (sp, b) := by
  cases sp <;> simp only [decode] at h <;> split at h
  case cmdIdle.isTrue hb => cases h; rw [encode_decodeCmdIdle, setWidth_lowBits rfl hb]
  case cmdBusy.isTrue hb => cases h; rw [encode_decodeCmdBusy, setWidth_lowBits rfl hb]
  case seq.isTrue hb => cases h; rw [encode_decodeSeq, setWidth_lowBits rfl hb]
  case host.isTrue hb => rw [encode_of_decodeHost h, setWidth_lowBits rfl hb]
  all_goals cases h

/-- Settles O1: `decode` inverts `encode` row by row, and `encode` inverts `decode` space by space. -/
theorem decodeAndEncodeAgree : Obligations.DecodeAndEncodeAgree := by
  unfold Obligations.DecodeAndEncodeAgree
  intro sp b i _
  refine ⟨encode_of_decode, fun h => ?_⟩
  have hdec : decode (encode i).1 (encode i).2 = .ok i := decode_encode i
  rwa [h] at hdec

/-- Settles O2: each word is the encoding of its row. -/
theorem writtenOutWordsDecode : Obligations.WrittenOutWordsDecode := by
  unfold Obligations.WrittenOutWordsDecode
  exact ⟨decode_encode .enc, decode_encode .dec, decode_encode .collideRsvd, decode_encode .runEnc,
    decode_encode .finDec, decode_encode (.rst 0b10)⟩

end Sys2Proof
end

section
/-! PROOFS. The rows of one edge: which command row and which sequencer row it has (30_encoding.md R61, R63), that the two agree,
and at which edges a row is refused (log entries 5 and 6). -/

namespace Sys2Proof.Machine

/-! ### The command row and the sequencer row -/

/-- Settles O3: the decoded row is R61's table for `fsm`, read at `cmd`. -/
theorem commandRowOfAnEdge : Obligations.CommandRowOfAnEdge := by
  unfold Obligations.CommandRowOfAnEdge
  intro s hr
  refine ⟨fun hf => ?_, fun hf => ?_⟩
  · rw [decodeEdge_idle hr hf]
    refine ⟨?_, ?_, ?_, ?_⟩ <;> intro hc <;> rw [hc] <;> rfl
  · have hrow : decodeEdge (edgeWord s) = decodeCmdBusy s.ports.cmd := hf.elim (decodeEdge_run hr) (decodeEdge_fin hr)
    rw [hrow]
    refine ⟨?_, ?_, ?_, ?_⟩ <;> intro hc <;> rw [hc] <;> rfl

/-- The sequencer row reads `fsm` and `mode` alone (R63). -/
theorem decodeEdgeSeq_eq (s : State) : decodeEdgeSeq (edgeWord s) = decodeSeq (s.fsm.code ++ s.mode.bit) := by
  rw [decodeEdgeSeq, edgeWord_seq, seqWord]

theorem decodeEdgeSeq_idle {s : State} (hf : s.fsm = .idle) : decodeEdgeSeq (edgeWord s) = .idle s.mode.bit := by
  rw [decodeEdgeSeq_eq, hf]; cases s.mode <;> rfl

theorem decodeEdgeSeq_code11 {s : State} (hf : s.fsm = .code11) :
    decodeEdgeSeq (edgeWord s) = .unreachable s.mode.bit := by
  rw [decodeEdgeSeq_eq, hf]; cases s.mode <;> rfl

/-- Settles O4: the table of R63, line by line. -/
theorem sequencerRowOfAnEdge : Obligations.SequencerRowOfAnEdge := by
  unfold Obligations.SequencerRowOfAnEdge
  intro s
  refine ⟨decodeEdgeSeq_idle, ?_, ?_, ?_, ?_, decodeEdgeSeq_code11⟩ <;>
    (intro hf hm; rw [decodeEdgeSeq_eq, hf, hm]; rfl)

/-! ### The two rows of one edge have the same outcome -/

/-- The sequencer row of an edge in RUN is a main round in the direction of the run (R166, R167). -/
theorem exec_decodeEdgeSeq_run {s : State} (hf : s.fsm = .run) :
    exec (decodeEdgeSeq (edgeWord s)) s = seqRound s.mode s := by
  rw [decodeEdgeSeq_eq, hf]; cases s.mode <;> rfl

/-- The sequencer row of an edge in FIN is the final transform in the direction of the run (R168, R169). -/
theorem exec_decodeEdgeSeq_fin {s : State} (hf : s.fsm = .fin) :
    exec (decodeEdgeSeq (edgeWord s)) s = seqFinal s.mode s := by
  rw [decodeEdgeSeq_eq, hf]; cases s.mode <;> rfl

/-- In RUN the command row and the sequencer row are one round and one collision (R226). -/
theorem busyEdge_eq_seqRound {s : State} (hf : s.fsm = .run) :
    busyEdge (collide s.ports.cmd) s = seqRound s.mode s := by
  have hfin : seqPos s ≠ some .fin := fun h => Fsm.noConfusion (hf.symm.trans (seqPos_fin.1 h).1)
  unfold busyEdge seqRound
  cases hp : seqPos s with
  | none => rfl
  | some p =>
    cases p with
    | idle => rfl
    | run r => simp
    | fin => exact absurd hp hfin

/-- In FIN the command row and the sequencer row are the final transform and one collision (R226). -/
theorem busyEdge_eq_seqFinal {s : State} (hf : s.fsm = .fin) :
    busyEdge (collide s.ports.cmd) s = seqFinal s.mode s := by
  have hrun : ∀ r, seqPos s ≠ some (.run r) := fun r h => Fsm.noConfusion (hf.symm.trans (seqPos_run.1 h).1)
  unfold busyEdge seqFinal
  cases hp : seqPos s with
  | none => rfl
  | some p =>
    cases p with
    | idle => rfl
    | run r => exact absurd hp (hrun r)
    | fin => simp

/-- Settles O7: in IDLE both rows perform the command, in RUN and FIN both are the sequencer step with the collision, and with
`fsm` = 11 they are one row. -/
theorem commandAndSequencerRowsAgree : Obligations.CommandAndSequencerRowsAgree := by
  unfold Obligations.CommandAndSequencerRowsAgree
  intro s hr
  cases hf : s.fsm with
  | idle => rw [decodeEdge_idle hr hf, exec_decodeCmdIdle, decodeEdgeSeq_idle hf]; rfl
  | run => rw [decodeEdge_run hr hf, exec_decodeCmdBusy, busyEdge_eq_seqRound hf, exec_decodeEdgeSeq_run hf]
  | fin => rw [decodeEdge_fin hr hf, exec_decodeCmdBusy, busyEdge_eq_seqFinal hf, exec_decodeEdgeSeq_fin hf]
  | code11 => rw [decodeEdge_code11 hr hf, decodeEdgeSeq_code11 hf]

/-! ### Rows outside their context -/

/-- A step answers a next state or the fault of R172. -/
theorem step_ne_refused (s : State) (r : Refusal) : step s ≠ .refused r := by
  obtain ⟨-, hs⟩ | ⟨-, -, hs⟩ | ⟨_, -, -, hs⟩ | ⟨-, -, hs⟩ | ⟨-, -, hs⟩ := step_cases s <;> simp [hs]

section
variable {s : State} {f : State → State} {m : Mode} {p : SeqPos}

theorem idleEdge_rst (hr : s.ports.rst = true) : idleEdge f s = .refused .outOfContext := if_pos hr

theorem busyEdge_rst (hr : s.ports.rst = true) : busyEdge f s = .refused .outOfContext := if_pos hr

theorem seqRound_rst (hr : s.ports.rst = true) : seqRound m s = .refused .outOfContext := if_pos hr

theorem seqFinal_rst (hr : s.ports.rst = true) : seqFinal m s = .refused .outOfContext := if_pos hr

theorem idleEdge_refused (hp : seqPos s = some p) (hne : p ≠ .idle) : idleEdge f s = .refused .outOfContext := by
  cases p <;> simp_all [idleEdge]

theorem busyEdge_refused (hp : seqPos s = some .idle) : busyEdge f s = .refused .outOfContext := by
  simp [busyEdge, hp]

theorem seqRound_refused (hp : seqPos s = some p) (h : ∀ r, p = .run r → s.mode ≠ m) :
    seqRound m s = .refused .outOfContext := by
  cases p <;> simp_all [seqRound]

theorem seqFinal_refused (hp : seqPos s = some p) (h : p = .fin → s.mode ≠ m) :
    seqFinal m s = .refused .outOfContext := by
  cases p <;> simp_all [seqFinal]

end

/-- A row of IDLE is an edge in IDLE: it answers `x` where every such edge does. -/
theorem exec_idleRow_eq {s : State} {i : Instr} {x : Result}
    (hi : i ∈ [Instr.nop, .enc, .dec, .rsvd] ∨ ∃ m, i = .idle m) (h : ∀ f, idleEdge f s = x) : exec i s = x := by
  cases i with
  | nop => exact h fun t => t
  | enc => exact h (accept .enc)
  | dec => exact h (accept .dec)
  | rsvd => exact h raiseErr
  | idle _ => exact h (command s.ports.cmd)
  | _ => simp at hi

/-- A command row of RUN and FIN is a busy edge: it answers `x` where every such edge does. -/
theorem exec_busyRow_eq {s : State} {i : Instr} {x : Result}
    (hi : i ∈ [Instr.noCmd, .collideEnc, .collideDec, .collideRsvd]) (h : ∀ f, busyEdge f s = x) : exec i s = x := by
  cases i with
  | noCmd => exact h fun t => t
  | collideEnc | collideDec | collideRsvd => exact h raiseErr
  | _ => simp at hi

/-- A reset edge runs no row of the CMD and SEQ formats (R226); UNREACHABLE has an answer of its own (log entry 7). -/
theorem exec_refused_of_rst {s : State} {i : Instr} (hr : s.ports.rst = true) (hrst : ∀ cc, i ≠ .rst cc)
    (hunr : ∀ m, i ≠ .unreachable m) : exec i s = .refused .outOfContext := by
  cases i with
  | nop | enc | dec | rsvd | idle _ => exact exec_idleRow_eq (by simp) fun _ => idleEdge_rst hr
  | noCmd | collideEnc | collideDec | collideRsvd => exact exec_busyRow_eq (by simp) fun _ => busyEdge_rst hr
  | runEnc | runDec => exact seqRound_rst hr
  | finEnc | finDec => exact seqFinal_rst hr
  | unreachable m => exact absurd rfl (hunr m)
  | rst cc => exact absurd rfl (hrst cc)

/-- The rows of RUN and FIN have no meaning in IDLE. -/
theorem exec_runOrFinRow_refused {s : State} {i : Instr} (hp : seqPos s = some .idle)
    (hi : i ∈ [Instr.noCmd, .collideEnc, .collideDec, .collideRsvd, .runEnc, .runDec, .finEnc, .finDec]) :
    exec i s = .refused .outOfContext := by
  cases i with
  | noCmd | collideEnc | collideDec | collideRsvd => exact exec_busyRow_eq (by simp) fun _ => busyEdge_refused hp
  | runEnc | runDec => exact seqRound_refused hp nofun
  | finEnc | finDec => exact seqFinal_refused hp nofun
  | _ => simp at hi

/-- Settles O5: a clause for each way the context column excludes a row. -/
theorem rowsOutsideTheirContextAreRefused : Obligations.RowsOutsideTheirContextAreRefused := by
  unfold Obligations.RowsOutsideTheirContextAreRefused
  refine ⟨step_ne_refused, fun s i => exec_refused_of_rst, ?_, ?_, ?_, ?_⟩
  · rintro s i p hne ⟨-, hpos⟩ hi
    exact exec_idleRow_eq hi fun _ => idleEdge_refused (seqPos_eq_some.2 hpos) hne
  · rintro s i ⟨-, hpos⟩ hi
    exact exec_runOrFinRow_refused (seqPos_eq_some.2 hpos) hi
  · rintro s r ⟨-, hpos⟩
    have hp : seqPos s = some (.run r) := seqPos_eq_some.2 hpos
    exact ⟨seqFinal_refused hp nofun, seqFinal_refused hp nofun,
      fun hm => seqRound_refused hp (by simp [hm]), fun hm => seqRound_refused hp (by simp [hm])⟩
  · rintro s ⟨-, hpos⟩
    have hp : seqPos s = some .fin := seqPos_eq_some.2 hpos
    exact ⟨seqRound_refused hp nofun, seqRound_refused hp nofun,
      fun hm => seqFinal_refused hp (by simp [hm]), fun hm => seqFinal_refused hp (by simp [hm])⟩

end Sys2Proof.Machine
end

section
/-! PROOFS. The pseudo-instructions of a host program (30_encoding.md R68), driven from IDLE. -/

namespace Sys2Proof.Machine

/-! ### What the host drives at the coming edge and at the edges after it -/

/-- A host that drives a program has its first line on the ports and the rest in its later lines. -/
theorem drivesAll_cons {l : Line} {ls : List Line} {p : Inputs} {ps : List Inputs} {n : Nat}
    (h : drivesAll (l :: ls) ((p :: ps).take (n + 1)) = true) :
    l.drives p = true ∧ drivesAll ls (ps.take n) = true := by
  simpa [drivesAll] using h

/-- After the edge that runs its first line the host goes on with the rest. -/
theorem drivesAll_hostDrives {ls : List Line} {s : State} (h : drivesAll ls (s.lines.take ls.length) = true) :
    drivesAll ls (((hostDrives s).ports :: (hostDrives s).lines).take ls.length) = true := by
  cases ls with
  | nil => rfl
  | cons l ls =>
    cases hl : s.lines with
    | nil => simp [hl, drivesAll] at h
    | cons p ps => rwa [hostDrives_cons hl, ← hl]

/-- A host that waits for `n` edges drives no reset at them. -/
theorem noResetFor_of_wait {n : Nat} {s : State} (h : drivesAll (List.replicate n .nop) (s.lines.take n) = true) :
    noResetFor n s := by
  have hlen : (s.lines.take n).length = n := by simpa using drivesAll_length h
  exact ⟨by simpa using hlen, fun l hl => (drivesAll_wait h l hl).1⟩

/-! ### WAIT -/

/-- The host's next drive touches no register. -/
theorem sameRegs_hostDrives (s : State) : sameRegs s (hostDrives s) := by simp [sameRegs]

theorem sameRegs_trans {s t u : State} (hst : sameRegs s t) (htu : sameRegs t u) : sameRegs s u := by
  simp_all [sameRegs]

/-- Waiting in IDLE changes no register (R190). -/
theorem run_wait {n : Nat} {s : State} (hp : seqPos s = some .idle)
    (h : drivesAll (List.replicate n .nop) ((s.ports :: s.lines).take n) = true) :
    ∃ t, run n s = .next t ∧ sameRegs s t := by
  induction n generalizing s with
  | zero => exact ⟨s, rfl, by simp [sameRegs]⟩
  | succ n ih =>
    obtain ⟨hnop, hrest⟩ := drivesAll_cons h
    obtain ⟨hr, hc⟩ := (drives_nop s.ports).1 hnop
    have hstep : step s = .next (hostDrives s) := by rw [step_idle hr hp, hc]; rfl
    have hnext := drivesAll_hostDrives (ls := List.replicate n .nop) (by simpa using hrest)
    obtain ⟨t, hrun, hregs⟩ := ih (by rwa [seqPos_hostDrives]) (by simpa using hnext)
    exact ⟨t, (run_succ hstep n).trans hrun, sameRegs_trans (sameRegs_hostDrives s) hregs⟩

/-! ### ENCRYPT and DECRYPT -/

/-- The host-program line that asks for a run in direction `m` (R67). -/
def Mode.line (m : Mode) (b k : Block) : Line :=
  match m with
  | .enc => .enc b k
  | .dec => .dec b k

/-- What the line of a run drives: its command and, packed, its operands. -/
theorem drives_line {m : Mode} {b k : Block} {p : Inputs} (h : (m.line b k).drives p = true) :
    p.rst = false ∧ p.cmd = m.command ∧ p.blockIn = pack b ∧ p.keyIn = pack k := by
  cases m with
  | enc => exact (drives_enc b k p).1 h
  | dec => exact (drives_dec b k p).1 h

/-- A command followed by 12 edges of waiting leaves the result of its run on the output (R173). -/
theorem run_command_and_wait {m : Mode} {s : State} {b k : Block} (hp : seqPos s = some .idle)
    (h : drivesAll (m.line b k :: List.replicate 12 .nop) ((s.ports :: s.lines).take 13) = true) :
    ∃ t, run 13 s = .next t ∧ t.done = true ∧ blockOut t = pack (cipher s.rom m b (workingKey m k)) := by
  obtain ⟨hline, hwait⟩ := drivesAll_cons h
  obtain ⟨hr, hc, hb, hk⟩ := drives_line hline
  have ha : accepts m s := ⟨⟨hr, seqPos_idle.1 hp⟩, hc⟩
  obtain ⟨t, hrun, -, hdone, hS⟩ := run_result ha (noResetFor_of_wait hwait)
  refine ⟨t, hrun, hdone, ?_⟩
  rw [blockOut, hS, hb, hk, unpack_pack, unpack_pack]

/-- Settles O36: WAIT by induction on its edges; ENCRYPT and DECRYPT are the run that their first line starts. -/
theorem pseudoInstructionsDoWhatTheySay : Obligations.PseudoInstructionsDoWhatTheySay := by
  unfold Obligations.PseudoInstructionsDoWhatTheySay
  intro s hf hn
  have hp : seqPos s = some .idle := seqPos_idle.2 ⟨hf, hn⟩
  exact ⟨fun n h => run_wait hp h, fun b k h => run_command_and_wait (m := .enc) hp h,
    fun b k h => run_command_and_wait (m := .dec) hp h⟩

end Sys2Proof.Machine
end

section
/-! PROOFS. The word rotations (40_word_rotation.md): the bit each one reads, the words they keep, and the inverse law. -/

namespace Sys2Proof.Machine

/-! ### The shift-and-or formulas as rotations -/

/-- A reduced amount of 0 returns the word (R100). -/
theorem rotl32_of_mod_eq_zero (x : Word) {a : Nat} (h : a % 32 = 0) : rotl32 x a = x := if_pos h

/-- A reduced amount of 0 returns the word (R101). -/
theorem rotr32_of_mod_eq_zero (x : Word) {a : Nat} (h : a % 32 = 0) : rotr32 x a = x := if_pos h

/-- The library's rotation has no case of its own for a reduced amount of 0: there a shift by 32 gives 0. -/
theorem rotl32_eq_rotateLeft (x : Word) (a : Nat) : rotl32 x a = x.rotateLeft a := by
  rw [BitVec.rotateLeft_def]
  by_cases h : a % 32 = 0
  · simp [rotl32_of_mod_eq_zero x h, h, BitVec.ushiftRight_eq_zero]
  · exact if_neg h

theorem rotr32_eq_rotateRight (x : Word) (a : Nat) : rotr32 x a = x.rotateRight a := by
  rw [BitVec.rotateRight_def]
  by_cases h : a % 32 = 0
  · simp [rotr32_of_mod_eq_zero x h, h]
  · exact if_neg h

/-! ### Which bit of the word a rotation reads -/

/-- The left rotation reads `a` places below, wrapping around under bit 0. -/
theorem getLsbD_rotl32 (x : Word) (a : Nat) {j : Nat} (hj : j < 32) :
    (rotl32 x a).getLsbD j = x.getLsbD ((j + (32 - a % 32)) % 32) := by
  rw [rotl32_eq_rotateLeft, BitVec.getLsbD_rotateLeft]
  by_cases hwrap : j < a % 32
  · have hpos : (j + (32 - a % 32)) % 32 = 32 - a % 32 + j := by omega
    simp [hwrap, hpos]
  · have hpos : (j + (32 - a % 32)) % 32 = j - a % 32 := by omega
    simp [hwrap, hpos, hj]

/-- The right rotation reads `a` places above, wrapping around over bit 31 (R101). -/
theorem getLsbD_rotr32 (x : Word) (a : Nat) {j : Nat} (hj : j < 32) :
    (rotr32 x a).getLsbD j = x.getLsbD ((j + a % 32) % 32) := by
  rw [rotr32_eq_rotateRight, BitVec.getLsbD_rotateRight]
  by_cases hwrap : j < 32 - a % 32
  · have hpos : (j + a % 32) % 32 = a % 32 + j := by omega
    simp [hwrap, hpos]
  · have hpos : (j + a % 32) % 32 = j - (32 - a % 32) := by omega
    simp [hwrap, hpos, hj]

/-- Where the left rotation moves bit `j` (R100): the position that reads it. -/
theorem getLsbD_rotl32_moved (x : Word) (a : Nat) {j : Nat} (hj : j < 32) :
    (rotl32 x a).getLsbD ((j + a % 32) % 32) = x.getLsbD j := by
  have hback : ((j + a % 32) % 32 + (32 - a % 32)) % 32 = j := by omega
  rw [getLsbD_rotl32 x a (by omega), hback]

/-! ### Words with all bits alike -/

theorem rotl32_eq_self_of_bits_alike {x : Word} {b : Bool} (h : ∀ j < 32, x.getLsbD j = b) (a : Nat) :
    rotl32 x a = x :=
  BitVec.eq_of_getLsbD_eq fun j hj => by rw [getLsbD_rotl32 x a hj, h _ (by omega), h j hj]

theorem rotr32_eq_self_of_bits_alike {x : Word} {b : Bool} (h : ∀ j < 32, x.getLsbD j = b) (a : Nat) :
    rotr32 x a = x :=
  BitVec.eq_of_getLsbD_eq fun j hj => by rw [getLsbD_rotr32 x a hj, h _ (by omega), h j hj]

/-! ### The statements -/

/-- Settles O39: the bit each rotation reads, its first branch, and the two words whose bits are all alike. -/
theorem rotationsMoveEveryBit : Obligations.RotationsMoveEveryBit := by
  unfold Obligations.RotationsMoveEveryBit
  intro x a
  have hzeros : ∀ j < 32, (0 : Word).getLsbD j = false := by decide
  have hones : ∀ j < 32, (0xFFFFFFFF : Word).getLsbD j = true := by decide
  exact ⟨fun j hj => getLsbD_rotl32_moved x a hj, fun j hj => getLsbD_rotr32 x a hj,
    fun h => ⟨rotl32_of_mod_eq_zero x h, rotr32_of_mod_eq_zero x h⟩,
    rotl32_eq_self_of_bits_alike hzeros a, rotr32_eq_self_of_bits_alike hzeros a,
    rotl32_eq_self_of_bits_alike hones a, rotr32_eq_self_of_bits_alike hones a⟩

/-- Settles O40: the right rotation reads bit `j` from the place where the left rotation moved it (R102). -/
theorem rightRotationUndoesLeft : Obligations.RightRotationUndoesLeft := by
  unfold Obligations.RightRotationUndoesLeft
  intro x r
  refine BitVec.eq_of_getLsbD_eq fun j hj => ?_
  rw [getLsbD_rotr32 _ r hj, getLsbD_rotl32_moved x r hj]

end Sys2Proof.Machine
end

section
/-! PROOFS. The diffusion mixer (41_diffusion.md): its expanded table, its linearity, its inverse and its branch number. -/

namespace Sys2Proof.Machine

/-! ### The expanded table -/

/-- Settles O41: `diffuse_get` at each of the twelve words, the seven positions mod 12 in ascending order. -/
theorem diffuseIsTheSevenWordXor : Obligations.DiffuseIsTheSevenWordXor := by
  unfold Obligations.DiffuseIsTheSevenWordXor
  intro b
  refine Block.ext_get fun i => ?_
  rw [diffuse_get]
  fin_cases i <;> dsimp [Block.get] <;> ac_rfl

/-! ### Linearity and bit positions -/

theorem diffuse_xorBlock (a b : Block) : diffuse (xorBlock a b) = xorBlock (diffuse a) (diffuse b) := by
  refine Block.ext_get fun i => ?_
  simp only [xorBlock_get, diffuse_get]
  ac_rfl

/-- A bit of the diffusion is the XOR of seven bits at the same position. -/
theorem getLsbD_diffuse_congr {a b : Block} {j k : Nat} (h : ∀ i, (a.get i).getLsbD j = (b.get i).getLsbD k)
    (i : Fin 12) : ((diffuse a).get i).getLsbD j = ((diffuse b).get i).getLsbD k := by
  simp only [diffuse_get, BitVec.getLsbD_xor, h]

/-- Settles O42: both parts word by word, from the seven-word XOR. -/
theorem diffuseIsLinearAndBitwise : Obligations.DiffuseIsLinearAndBitwise := by
  unfold Obligations.DiffuseIsLinearAndBitwise
  exact ⟨diffuse_xorBlock, fun _ _ _ _ _ _ h => getLsbD_diffuse_congr h⟩

/-! ### Cyclic symmetry -/

/-- The words of a Block moved down by `k` places, cyclically. -/
def rotateWords (k : Fin 12) (b : Block) : Block := .ofFn fun i => b.get (i + k)

@[simp] theorem rotateWords_get (k : Fin 12) (b : Block) (i : Fin 12) :
    (rotateWords k b).get i = b.get (i + k) := by simp [rotateWords]

/-- Every word of the diffusion has the same seven offsets (R110). -/
theorem diffuse_rotateWords (k : Fin 12) (b : Block) : diffuse (rotateWords k b) = rotateWords k (diffuse b) := by
  refine Block.ext_get fun i => ?_
  simp only [diffuse_get, rotateWords_get, add_right_comm i _ k]

theorem diffuseInv_rotateWords (k : Fin 12) (b : Block) :
    diffuseInv (rotateWords k b) = rotateWords k (diffuseInv b) := by
  refine Block.ext_get fun i => ?_
  simp only [diffuseInv_get, rotateWords_get, add_right_comm i _ k]

/-! ### The inverse -/

/-- Of the 49 words whose XOR this is, word 0 stands there 7 times and every other word an even number of times (R113). -/
theorem diffuseInv_diffuse_get_zero (b : Block) : (diffuseInv (diffuse b)).get 0 = b.get 0 := by
  rw [diffuseInv_get, diffuseIsTheSevenWordXor b]
  simp only [Block.get, zero_add]
  ac_nf
  simp only [BitVec.xor_self, BitVec.xor_zero]

theorem diffuseInv_diffuse (b : Block) : diffuseInv (diffuse b) = b := by
  refine Block.ext_get fun i => ?_
  have h := diffuseInv_diffuse_get_zero (rotateWords i b)
  rwa [diffuse_rotateWords, diffuseInv_rotateWords, rotateWords_get, rotateWords_get, zero_add] at h

/-- The inverse offsets are the negated offsets mod 12, and reversing the words negates an offset (R113). -/
theorem diffuseInv_eq_reverse (b : Block) : diffuseInv b = reverse (diffuse (reverse b)) := by
  refine Block.ext_get fun i => ?_
  have hneg : (-2 : Fin 12) = 10 ∧ (-6 : Fin 12) = 6 ∧ (-7 : Fin 12) = 5 ∧ (-9 : Fin 12) = 3 ∧
      (-10 : Fin 12) = 2 ∧ (-11 : Fin 12) = 1 := by decide
  simp only [diffuse_get, diffuseInv_get, reverse_get, Fin.rev_add, Fin.rev_rev, sub_eq_add_neg, hneg]
  ac_rfl

theorem reverse_diffuse_reverse_diffuse (b : Block) : reverse (diffuse (reverse (diffuse b))) = b := by
  rw [← diffuseInv_eq_reverse, diffuseInv_diffuse]

theorem diffuse_reverse_diffuse (b : Block) : diffuse (reverse (diffuse b)) = reverse b := by
  rw [← reverse_reverse (diffuse _), reverse_diffuse_reverse_diffuse]

theorem diffuse_diffuseInv (b : Block) : diffuse (diffuseInv b) = b := by
  rw [diffuseInv_eq_reverse, diffuse_reverse_diffuse, reverse_reverse]

/-- Settles O44: the left inverse is computed at word 0; the right one follows from it, since the inverse is the diffusion
between two reversals. -/
theorem diffuseIsABijection : Obligations.DiffuseIsABijection := by
  unfold Obligations.DiffuseIsABijection
  exact fun b => ⟨diffuseInv_diffuse b, diffuse_diffuseInv b, diffuseInv_eq_reverse b,
    reverse_diffuse_reverse_diffuse b⟩

@[simp] theorem reverse_zero : reverse .zero = .zero := rfl

@[simp] theorem diffuse_zero : diffuse .zero = .zero := Block.ext_get fun i => by simp [diffuse_get]

/-! ### Counting nonzero words -/

theorem wordWeight_eq_card (b : Block) : wordWeight b = (Finset.univ.filter fun i => b.get i ≠ 0).card := by
  have h : (fun i => b.get i != 0) = fun i => decide (b.get i ≠ 0) := funext fun i => by
    rw [bne, decide_not, beq_eq_decide]
  rw [wordWeight, h]
  rfl

/-- Moving the words of a Block about keeps the number of nonzero ones. -/
theorem wordWeight_eq_of_perm {a b : Block} (σ : Equiv.Perm (Fin 12)) (h : ∀ i, a.get i = b.get (σ i)) :
    wordWeight a = wordWeight b := by
  rw [wordWeight_eq_card, wordWeight_eq_card]
  exact Finset.card_equiv σ (by simp [h])

theorem wordWeight_reverse (b : Block) : wordWeight (reverse b) = wordWeight b :=
  wordWeight_eq_of_perm Fin.revPerm (by simp)

theorem wordWeight_rotateWords (k : Fin 12) (b : Block) : wordWeight (rotateWords k b) = wordWeight b :=
  wordWeight_eq_of_perm (Equiv.addRight k) (by simp)

theorem wordWeight_diffuse_rotateWords (k : Fin 12) (b : Block) :
    wordWeight (diffuse (rotateWords k b)) = wordWeight (diffuse b) := by
  rw [diffuse_rotateWords, wordWeight_rotateWords]

/-! ### One active word -/

theorem wordWeight_single (i : Fin 12) {x : Word} (hx : x ≠ 0#32) : wordWeight (.single i x) = 1 := by
  simp [wordWeight_eq_card, hx, Finset.filter_eq']

theorem rotateWords_single (i : Fin 12) (x : Word) : rotateWords i (.single i x) = .single 0 x :=
  Block.ext_get fun j => by simp

theorem diffuse_single_zero (x : Word) : diffuse (.single 0 x) = ⟨x, x, x, x, 0, x, x, 0, 0, 0, x, 0⟩ := by
  rw [diffuseIsTheSevenWordXor]
  simp [Block.single, Block.ofFn]

theorem wordWeight_diffuse_single (i : Fin 12) {x : Word} (hx : x ≠ 0#32) :
    wordWeight (diffuse (.single i x)) = 7 := by
  rw [← wordWeight_diffuse_rotateWords i, rotateWords_single, diffuse_single_zero, wordWeight]
  simp [List.finRange_succ, Block.get, hx]

/-! ### The active words at one bit position -/

/-- The words of a Block whose bit `j` is set. -/
def activeAt (b : Block) (j : Nat) : Finset (Fin 12) := Finset.univ.filter fun i => (b.get i).getLsbD j = true

@[simp] theorem mem_activeAt {b : Block} {j : Nat} {i : Fin 12} : i ∈ activeAt b j ↔ (b.get i).getLsbD j = true := by
  simp [activeAt]

theorem card_activeAt_le (b : Block) (j : Nat) : (activeAt b j).card ≤ wordWeight b := by
  rw [wordWeight_eq_card]
  refine Finset.card_le_card fun i hi => ?_
  rw [mem_activeAt] at hi
  rw [Finset.mem_filter]
  exact ⟨Finset.mem_univ i, fun h0 => by simp [h0] at hi⟩

theorem exists_mem_activeAt {b : Block} (hb : b ≠ .zero) : ∃ i j, i ∈ activeAt b j := by
  by_contra! hnone
  refine hb (Block.ext_get fun i => BitVec.eq_of_getLsbD_eq fun j _ => ?_)
  simpa using hnone i j

/-- The words of the diffusion that a set of active words turns on at one bit position: those for which an odd number of the
seven positions they read is active. -/
def spread (T : Finset (Fin 12)) : Finset (Fin 12) :=
  Finset.univ.filter fun i => Odd (T.filter fun p => p - i ∈ offsets).card

/-- A bit of an XOR of words is set when an odd number of the words have it. -/
theorem getLsbD_xorAt (os : List (Fin 12)) (b : Block) (i : Fin 12) (j : Nat) :
    (xorAt os b i).getLsbD j = true ↔ Odd (os.countP fun o => (b.get (i + o)).getLsbD j) := by
  induction os with
  | nil => simp [xorAt]
  | cons o os ih =>
    have hcons : xorAt (o :: os) b i = b.get (i + o) ^^^ xorAt os b i := rfl
    rw [hcons, BitVec.getLsbD_xor, List.countP_cons]
    cases (b.get (i + o)).getLsbD j with
    | false => simp [ih]
    | true => simp [Nat.odd_add_one, ← ih]

/-- The offsets that reach an active word, counted by the words they reach. -/
theorem countP_offsets (T : Finset (Fin 12)) (i : Fin 12) :
    (offsets.countP fun o => i + o ∈ T) = (T.filter fun p => p - i ∈ offsets).card := by
  have hnodup : offsets.Nodup := by decide
  rw [List.countP_eq_length_filter, ← List.toFinset_card_of_nodup (hnodup.filter _)]
  exact Finset.card_equiv (Equiv.addLeft i) (by simp [and_comm])

theorem activeAt_diffuse (b : Block) (j : Nat) : activeAt (diffuse b) j = spread (activeAt b j) := by
  ext i
  have hactive : (offsets.countP fun o => (b.get (i + o)).getLsbD j) =
      offsets.countP fun o => i + o ∈ activeAt b j := by simp
  rw [mem_activeAt, diffuse, Block.get_ofFn, getLsbD_xorAt, hactive, countP_offsets, spread, Finset.mem_filter_univ]

/-! ### The branch number -/

theorem eq_insert_pair_of_card_le_three {T : Finset (Fin 12)} {p : Fin 12} (hp : p ∈ T) (hT : T.card ≤ 3) :
    ∃ q r, T = {p, q, r} := by
  have hcard : (T.erase p).card ≤ 2 := by rw [Finset.card_erase_of_mem hp]; omega
  rw [← Finset.insert_erase hp]
  interval_cases h : (T.erase p).card
  · exact ⟨p, p, by simp [Finset.card_eq_zero.1 h]⟩
  · obtain ⟨q, hq⟩ := Finset.card_eq_one.1 h
    exact ⟨q, q, by simp [hq]⟩
  · obtain ⟨q, r, -, hqr⟩ := Finset.card_eq_two.1 h
    exact ⟨q, r, by rw [hqr]⟩

/-- The patterns of at most three active words, one of them word 0. -/
theorem eight_le_card_add_card_spread :
    ∀ q r : Fin 12, 8 ≤ ({0, q, r} : Finset (Fin 12)).card + (spread {0, q, r}).card := by
  decide

/-- Bit position `j` of such a Block is a pattern of at most three active words, which bounds both weights from below. -/
theorem eight_le_of_zero_mem_activeAt {b : Block} {j : Nat} (h0 : 0 ∈ activeAt b j) (hw : wordWeight b ≤ 3) :
    8 ≤ wordWeight b + wordWeight (diffuse b) := by
  have hin := card_activeAt_le b j
  have hout := card_activeAt_le (diffuse b) j
  obtain ⟨q, r, hpattern⟩ := eq_insert_pair_of_card_le_three h0 (hin.trans hw)
  calc 8 ≤ (activeAt b j).card + (spread (activeAt b j)).card := hpattern ▸ eight_le_card_add_card_spread q r
    _ = (activeAt b j).card + (activeAt (diffuse b) j).card := by rw [activeAt_diffuse]
    _ ≤ wordWeight b + wordWeight (diffuse b) := Nat.add_le_add hin hout

/-- Moving the words about cyclically makes any active word word 0. -/
theorem eight_le_of_wordWeight_le_three {b : Block} (hb : b ≠ .zero) (hw : wordWeight b ≤ 3) :
    8 ≤ wordWeight b + wordWeight (diffuse b) := by
  obtain ⟨i, j, hij⟩ := exists_mem_activeAt hb
  have h0 : 0 ∈ activeAt (rotateWords i b) j := by simpa using hij
  have h := eight_le_of_zero_mem_activeAt h0 (by rwa [wordWeight_rotateWords])
  rwa [wordWeight_rotateWords, wordWeight_diffuse_rotateWords] at h

/-- With at least four nonzero words on both sides there is nothing to show. Otherwise one side has at most three; if it is
the output, `REVERSE` of the diffusion, an involution (R113), exchanges the two sides. -/
theorem eight_le_wordWeight_add {b : Block} (hb : b ≠ .zero) : 8 ≤ wordWeight b + wordWeight (diffuse b) := by
  by_cases hin : wordWeight b ≤ 3
  · exact eight_le_of_wordWeight_le_three hb hin
  by_cases hout : wordWeight (diffuse b) ≤ 3
  · have hne : reverse (diffuse b) ≠ .zero := fun h => hb <| by
      rw [← reverse_diffuse_reverse_diffuse b, h, diffuse_zero, reverse_zero]
    have h := eight_le_of_wordWeight_le_three hne (by rwa [wordWeight_reverse])
    rwa [diffuse_reverse_diffuse, wordWeight_reverse, wordWeight_reverse, Nat.add_comm] at h
  · omega

/-- Settles O43: the bound of `eight_le_wordWeight_add`, and one nonzero word, taken to be word 0. -/
theorem diffuseHasBranchNumberEight : Obligations.DiffuseHasBranchNumberEight := by
  unfold Obligations.DiffuseHasBranchNumberEight
  exact ⟨fun _ hb => eight_le_wordWeight_add hb, fun i _ hx => ⟨wordWeight_single i hx, wordWeight_diffuse_single i hx⟩⟩

end Sys2Proof.Machine
end

section
/-! PROOFS. The shift layer (42_shift_layer.md): the bit each pass reads, and how the two passes undo each other. -/

namespace Sys2Proof.Machine

/-! ### The rotation amounts -/

@[simp] theorem rotAmount_mod (i : Fin 12) : rotAmount i % 32 = rotAmount i := Nat.mod_eq_of_lt (rotAmount_lt i)

/-- The amounts of the late pass, word by word (R121): the rotation table read backwards. -/
theorem rotAmount_rev (i : Fin 12) : rotAmount i.rev = [2, 23, 13, 4, 28, 21, 15, 10, 6, 3, 1, 0].getD i.val 0 := by
  revert i
  decide

/-! ### The bits of the two passes -/

/-- Where the early pass moves bit `j` of a word (R120). -/
theorem getLsbD_earlyShift_moved (b : Block) (i : Fin 12) {j : Nat} (hj : j < 32) :
    ((earlyShift b).get i).getLsbD ((j + rotAmount i) % 32) = (b.get i).getLsbD j := by
  have hmoved := getLsbD_rotl32_moved (b.get i) (rotAmount i) hj
  rwa [rotAmount_mod, ← earlyShift_get] at hmoved

/-- Which bit of a word the late pass reads (R121). -/
theorem getLsbD_lateShift (b : Block) (i : Fin 12) {j : Nat} (hj : j < 32) :
    ((lateShift b).get i).getLsbD j = (b.get i).getLsbD ((j + rotAmount i.rev) % 32) := by
  rw [lateShift_get, getLsbD_rotr32 _ _ hj, rotAmount_mod]

theorem earlyShift_get_zero (b : Block) : (earlyShift b).get 0 = b.get 0 := by
  rw [earlyShift_get]
  exact rotl32_of_mod_eq_zero _ (by decide)

theorem lateShift_get_eleven (b : Block) : (lateShift b).get 11 = b.get 11 := by
  rw [lateShift_get]
  exact rotr32_of_mod_eq_zero _ (by decide)

/-- Settles O45: the moved bit of each pass with its amount from the table, and the two words whose amount is 0. -/
theorem shiftPassesMoveEveryBit : Obligations.ShiftPassesMoveEveryBit := by
  unfold Obligations.ShiftPassesMoveEveryBit
  intro b i j hj
  rw [← rotAmount_rev]
  exact ⟨getLsbD_earlyShift_moved b i hj, getLsbD_lateShift b i hj, earlyShift_get_zero b, lateShift_get_eleven b⟩

/-! ### The two passes up to reversal -/

/-- The left rotation undoes the right one: it reads bit `j` from the place whose bit the right rotation took from `j`. -/
theorem rotl32_rotr32 (x : Word) (a : Nat) : rotl32 (rotr32 x a) a = x := by
  refine BitVec.eq_of_getLsbD_eq fun j hj => ?_
  have hback : ((j + (32 - a % 32)) % 32 + a % 32) % 32 = j := by omega
  rw [getLsbD_rotl32 _ a hj, getLsbD_rotr32 x a (by omega), hback]

/-- Reversal brings each word of the late pass to the place where the early pass has its amount (R122). -/
theorem earlyShift_reverse_lateShift (b : Block) : earlyShift (reverse (lateShift b)) = reverse b := by
  refine Block.ext_get fun i => ?_
  rw [earlyShift_get, reverse_get, lateShift_get, Fin.rev_rev, rotl32_rotr32, reverse_get]

/-- Reversal brings each word of the early pass to the place where the late pass has its amount (R122). -/
theorem lateShift_reverse_earlyShift (b : Block) : lateShift (reverse (earlyShift b)) = reverse b := by
  refine Block.ext_get fun i => ?_
  rw [lateShift_get, reverse_get, earlyShift_get, rightRotationUndoesLeft, reverse_get]

/-- Settles O46: the two laws up to reversal; without it, word 0 of the fill by 1 comes back rotated right by 2. -/
theorem shiftPassesInvertUpToReversal : Obligations.ShiftPassesInvertUpToReversal := by
  unfold Obligations.ShiftPassesInvertUpToReversal
  refine ⟨fun b => ⟨earlyShift_reverse_lateShift b, lateShift_reverse_earlyShift b⟩, ?_⟩
  have hword : (lateShift (earlyShift (Block.fill 1))).get 0 = rotr32 1 2 := by
    rw [lateShift_get, earlyShift_get_zero, Block.get_fill]
    rfl
  rw [hword, Block.get_fill]
  decide

end Sys2Proof.Machine
end

section
/-! PROOFS. The substitution layer (43_substitution.md): the three bits one output bit is made of, and the inverse up to reversal. -/

namespace Sys2Proof.Machine

/-! ### One bit of a group of three words -/

/-- The output bit `x'` of a group of three words with the bits `x`, `y`, `z` (R131); `y'` and `z'` are the same function of the
bits read from `y` and from `z` on, cyclically. -/
def substituteBit (x y z : Bool) : Bool := xor x (y || !z)

/-- R131's table is its own inverse once the cyclic order of the group is reversed (R132): the three outputs, read as `x'`, `z'`,
`y'`, give the input bit back. -/
theorem substituteBit_of_outputs :
    ∀ x y z : Bool,
      substituteBit (substituteBit x y z) (substituteBit z x y) (substituteBit y z x) = x := by
  decide

theorem getLsbD_substitute (b : Block) (i : Fin 12) {j : Nat} (hj : j < 32) :
    ((substitute b).get i).getLsbD j =
      substituteBit ((b.get i).getLsbD j) ((b.get (i + 4)).getLsbD j) ((b.get (i + 8)).getLsbD j) := by
  simp [substituteBit, hj]

/-- The second word of a group: the group read from there on is `i + 4`, `i + 8`, `i`. -/
theorem getLsbD_substitute_add_four (b : Block) (i : Fin 12) {j : Nat} (hj : j < 32) :
    ((substitute b).get (i + 4)).getLsbD j =
      substituteBit ((b.get (i + 4)).getLsbD j) ((b.get (i + 8)).getLsbD j) ((b.get i).getLsbD j) := by
  have h8 : i + 4 + 4 = i + 8 := add_assoc i 4 4
  have h12 : i + 4 + 8 = i := (add_assoc i 4 8).trans (add_zero i)
  rw [getLsbD_substitute b _ hj, h8, h12]

/-- The third word of a group: the group read from there on is `i + 8`, `i`, `i + 4`. -/
theorem getLsbD_substitute_add_eight (b : Block) (i : Fin 12) {j : Nat} (hj : j < 32) :
    ((substitute b).get (i + 8)).getLsbD j =
      substituteBit ((b.get (i + 8)).getLsbD j) ((b.get i).getLsbD j) ((b.get (i + 4)).getLsbD j) := by
  have h12 : i + 8 + 4 = i := (add_assoc i 8 4).trans (add_zero i)
  have h16 : i + 8 + 8 = i + 4 := add_assoc i 8 8
  rw [getLsbD_substitute b _ hj, h12, h16]

/-! ### The inverse up to reversal -/

/-- `REVERSE` maps a group onto a group in reversed cyclic order: seen from its first word, the second and the third word are
exchanged. -/
theorem rev_add_four (i : Fin 12) : (i + 4).rev = i.rev + 8 := by
  revert i
  decide

theorem rev_add_eight (i : Fin 12) : (i + 8).rev = i.rev + 4 := by
  revert i
  decide

/-- Settles O48: at each bit the second substitution reads the three outputs of one group in reversed cyclic order, and
`substituteBit_of_outputs` gives the input bit. -/
theorem substituteInvertsUpToReversal : Obligations.SubstituteInvertsUpToReversal := by
  unfold Obligations.SubstituteInvertsUpToReversal
  refine fun b => Block.ext_get fun i => BitVec.eq_of_getLsbD_eq fun j hj => ?_
  rw [getLsbD_substitute _ i hj, reverse_get, reverse_get, reverse_get, rev_add_four, rev_add_eight,
    getLsbD_substitute b _ hj, getLsbD_substitute_add_four b _ hj, getLsbD_substitute_add_eight b _ hj,
    substituteBit_of_outputs, reverse_get]

/-! ### The bijection -/

/-- The inverse on both sides is `REVERSE` of the substitution of `REVERSE` (R132). -/
theorem bijective_substitute : Function.Bijective substitute := by
  refine Function.bijective_iff_has_inverse.2 ⟨fun b => reverse (substitute (reverse b)), fun b => ?_, fun b => ?_⟩
  · change reverse (substitute (reverse (substitute b))) = b
    rw [substituteInvertsUpToReversal, reverse_reverse]
  · change substitute (reverse (substitute (reverse b))) = b
    rw [substituteInvertsUpToReversal, reverse_reverse]

/-- Settles O47: the output bits of one group, the eight rows of the table, the bijection, and R131's input `010` in the group of
word 0, which two substitutions take to `001`. -/
theorem substituteIsTheThreeBitTable : Obligations.SubstituteIsTheThreeBitTable := by
  unfold Obligations.SubstituteIsTheThreeBitTable
  refine ⟨fun b i j hj => getLsbD_substitute b i hj, fun b i j _ hj => ?_, bijective_substitute, .single 4 1, by decide⟩
  rw [getLsbD_substitute b i hj, getLsbD_substitute_add_four b i hj, getLsbD_substitute_add_eight b i hj]
  cases (b.get i).getLsbD j <;> cases (b.get (i + 4)).getLsbD j <;> cases (b.get (i + 8)).getLsbD j <;> rfl

end Sys2Proof.Machine
end

section
/-! PROOFS. The round-constant injection (44_round_constant_injection.md): the constant's positions are kept by `REVERSE` and by
`DIFFUSE`, so that the compensating construction of decryption is a plain injection. -/

namespace Sys2Proof.Machine

/-! ### The template -/

/-- The twelve words of the template (R140). -/
theorem template_eq (c : Word) : template c = ⟨0, 0, c, c, 0, 0, 0, 0, c, c, 0, 0⟩ := rfl

/-- The positions 2, 3, 8, 9 are mirror images of one another (R143). -/
theorem reverse_template (c : Word) : reverse (template c) = template c := rfl

/-- Of the seven words that R110 XORs, the constant stands in an odd number at the positions 2, 3, 8, 9 and in an even number
at every other one (R143). -/
theorem diffuse_template (c : Word) : diffuse (template c) = template c := by
  rw [diffuseIsTheSevenWordXor, template_eq]
  simp

/-! ### The injection -/

/-- The constant of round `r` and where it goes (R141). -/
theorem template_romRC_get (rom : Block) (r i : Fin 12) :
    (template (romRC rom r)).get i = if i = 2 ∨ i = 3 ∨ i = 8 ∨ i = 9 then rom.get r else 0 := by
  simp [templatePositions, romRC]

/-- With a template that `REVERSE` and `DIFFUSE` keep, decryption injects like encryption, its rounds counted backwards (R143). -/
theorem injectDec_eq_injectEnc_rev (rom b k : Block) (r : Fin 12) : injectDec rom b k r = injectEnc rom b k r.rev := by
  refine Block.ext_get fun i => ?_
  rw [injectDec_get, reverse_template, diffuse_template, injectEnc_get]

/-- Settles O49: the template's two fixed points, the words of the template, and `r.rev` as `11 - r`. -/
theorem injectionAddsTheKeyAndTheRoundConstant : Obligations.InjectionAddsTheKeyAndTheRoundConstant := by
  unfold Obligations.InjectionAddsTheKeyAndTheRoundConstant
  refine ⟨fun c => ⟨reverse_template c, diffuse_template c⟩, fun rom b k r i => ?_, fun rom b k r => ?_⟩
  · rw [injectEnc_get, template_romRC_get]
  · have hrev : (11 : Fin 12) - r = r.rev := Fin.last_sub r
    rw [hrev, injectDec_eq_injectEnc_rev]

end Sys2Proof.Machine
end

section
/-! PROOFS. The round schedule (45_round_schedule.md part 2): what each sequencer row answers, the step as R171 writes it, the
states of R172 that no edge enters, and the run of R173. -/

namespace Sys2Proof.Machine

/-! ### The sequencer step of an edge, written out -/

/-- The collision of an edge in RUN or FIN, as a condition on the one register it writes (R194). -/
theorem collide_eq (c : BitVec 2) (s : State) : collide c s = { s with err := if c ≠ 0 then true else s.err } := by
  unfold collide
  split <;> rfl

/-- A main round, its counter and its successor read from the round index (R166, R167). -/
theorem roundEdge_eq {s : State} {r : Fin 11} (m : Mode) (hp : seqPos s = some (.run r)) :
    roundEdge m r s =
      { s with
        S := mainRound s.rom m s.S s.K r
        rnd := if r = 10 then 11 else BitVec.ofNat 4 (r.val + 1)
        fsm := if r = 10 then .fin else .run } := by
  have hrnd : s.rnd = BitVec.ofNat 4 r.val := (seqPos_eq_some.1 hp).2
  have hsucc : s.rnd + 1 = BitVec.ofNat 4 (r.val + 1) := by rw [hrnd, BitVec.ofNat_add]; rfl
  simp only [roundEdge, rnd_eq_ten_iff (seqPos_run.1 hp).2, hsucc]

/-- The edge of a main round, with the collision (R166, R167, R194). -/
theorem collide_roundEdge_eq {s : State} {r : Fin 11} (m : Mode) (c : BitVec 2) (hp : seqPos s = some (.run r)) :
    collide c (roundEdge m r s) =
      { s with
        S := mainRound s.rom m s.S s.K r
        rnd := if r = 10 then 11 else BitVec.ofNat 4 (r.val + 1)
        fsm := if r = 10 then .fin else .run
        err := if c ≠ 0 then true else s.err } := by
  rw [collide_eq, roundEdge_eq m hp]

/-- The edge of the final transform, with the collision (R168, R169, R194). -/
theorem collide_finalEdge_eq (m : Mode) (c : BitVec 2) (s : State) :
    collide c (finalEdge m s) =
      { s with
        S := finalTransform s.rom m s.S s.K
        rnd := 0
        fsm := .idle
        done := true
        err := if c ≠ 0 then true else s.err } := by
  rw [collide_eq]
  rfl

/-! ### The rows -/

/-- The row IDLE is the edge's command, whatever its mode bit. -/
theorem exec_idle {s : State} (m : BitVec 1) (h : atPos .idle s) :
    exec (.idle m) s = .next (command s.ports.cmd s) :=
  idleEdge_next h.1 (seqPos_eq_some.2 h.2)

/-- Settles O16: the row IDLE performs the command, and each of the four commands is the rule's register transfer. -/
theorem idleRowPerformsTheCommand : Obligations.IdleRowPerformsTheCommand := by
  unfold Obligations.IdleRowPerformsTheCommand
  intro s m h
  rw [exec_idle m h]
  refine ⟨?_, ?_, ?_, ?_⟩ <;> intro hc <;> rw [hc] <;> rfl

/-- A main round in the row's own direction (R166, R167). -/
theorem seqRound_eq {m : Mode} {s : State} {r : Fin 11} (h : atPos (.run r) s) (hm : s.mode = m) :
    seqRound m s = .next
      { s with
        S := mainRound s.rom m s.S s.K r
        rnd := if r = 10 then 11 else BitVec.ofNat 4 (r.val + 1)
        fsm := if r = 10 then .fin else .run
        err := if s.ports.cmd ≠ 0 then true else s.err } := by
  obtain ⟨hr, hpos⟩ := h
  have hp : seqPos s = some (.run r) := seqPos_eq_some.2 hpos
  rw [seqRound_run hr hp hm, collide_roundEdge_eq m s.ports.cmd hp]

/-- The final transform in the row's own direction (R168, R169). -/
theorem seqFinal_eq {m : Mode} {s : State} (h : atPos .fin s) (hm : s.mode = m) :
    seqFinal m s = .next
      { s with
        S := finalTransform s.rom m s.S s.K
        rnd := 0
        fsm := .idle
        done := true
        err := if s.ports.cmd ≠ 0 then true else s.err } := by
  obtain ⟨hr, hpos⟩ := h
  rw [seqFinal_fin hr (seqPos_eq_some.2 hpos) hm, collide_finalEdge_eq]

/-- Settles O17: RUN_ENC and RUN_DEC are `seqRound` in their directions, and `mainRound` is R162's layers in order. -/
theorem runRowsComputeOneRound : Obligations.RunRowsComputeOneRound := by
  unfold Obligations.RunRowsComputeOneRound
  exact fun s r h => ⟨seqRound_eq h, seqRound_eq h⟩

/-- Settles O18: FIN_ENC and FIN_DEC are `seqFinal` in their directions, and `finalTransform` is R163's layers in order. -/
theorem finRowsComputeTheFinalTransform : Obligations.FinRowsComputeTheFinalTransform := by
  unfold Obligations.FinRowsComputeTheFinalTransform
  exact fun s h => ⟨seqFinal_eq h, seqFinal_eq h⟩

/-- Settles O20: the row's meaning reads neither the state nor the mode bit (log entry 7). -/
theorem unreachableRowFaults : Obligations.UnreachableRowFaults := by
  unfold Obligations.UnreachableRowFaults
  intro s m
  rfl

/-! ### The function `next` of R171 -/

theorem nextFunction_rst {s : State} (p : SeqPos) (hr : s.ports.rst = true) :
    nextFunction p s s.ports = resetRegs s := if_pos hr

theorem nextFunction_idle {s : State} (hr : s.ports.rst = false) :
    nextFunction .idle s s.ports = command s.ports.cmd s := by
  rw [nextFunction, if_neg (by simp [hr])]
  obtain hc | hc | hc | hc := cmd_cases s.ports.cmd <;> rw [hc] <;> rfl

theorem nextFunction_run {s : State} {r : Fin 11} (hr : s.ports.rst = false) (hp : seqPos s = some (.run r)) :
    nextFunction (.run r) s s.ports = collide s.ports.cmd (roundEdge s.mode r s) := by
  rw [collide_roundEdge_eq s.mode s.ports.cmd hp, nextFunction, if_neg (by simp [hr])]

theorem nextFunction_fin {s : State} (hr : s.ports.rst = false) :
    nextFunction .fin s s.ports = collide s.ports.cmd (finalEdge s.mode s) := by
  rw [collide_finalEdge_eq, nextFunction, if_neg (by simp [hr])]

/-- A step is R171's `next` and then the host's next line, at a reset edge and from every legal position. -/
theorem step_eq_nextFunction {s : State} {p : SeqPos} (h : seqPos s = some p ∨ s.ports.rst = true) :
    step s = .next (hostDrives (nextFunction p s s.ports)) := by
  cases hr : s.ports.rst with
  | true => rw [step_rst hr, nextFunction_rst p hr]
  | false =>
    have hp : seqPos s = some p := h.resolve_right (by simp [hr])
    cases p with
    | idle => rw [step_idle hr hp, nextFunction_idle hr]
    | run r => rw [step_run hr hp, nextFunction_run hr hp]
    | fin => rw [step_fin hr hp, nextFunction_fin hr]

/-- Settles O8: the step is `next`, and the host's drive touches no register. -/
theorem stepIsTheNextFunction : Obligations.StepIsTheNextFunction := by
  unfold Obligations.StepIsTheNextFunction
  intro s p h
  exact ⟨_, step_eq_nextFunction (h.imp_left seqPos_eq_some.2), by simp [sameRegs]⟩

/-! ### The unreachable sequencer states -/

/-- R172 lists exactly the states that have no legal position. -/
theorem unreachableSeq_iff {s : State} : unreachableSeq s ↔ seqPos s = none := by
  cases hf : s.fsm with
  | idle => simp [unreachableSeq, seqPos, hf]
  | run => simp [unreachableSeq, seqPos, hf]; omega
  | fin => simp [unreachableSeq, seqPos, hf]
  | code11 => simp [unreachableSeq, seqPos, hf]

/-- Every edge that completes leaves the sequencer at a legal position. -/
theorem seqPos_step_next {s t : State} (h : step s = .next t) : ∃ p, seqPos t = some p := by
  obtain ⟨-, rfl⟩ | ⟨-, hp, rfl⟩ | ⟨r, -, hp, rfl⟩ | ⟨-, -, rfl⟩ := step_next_cases h
  · exact ⟨.idle, by simp⟩
  · simpa using (seqInv_iff.1 (seqInv_command s.ports.cmd hp)).1
  · exact ⟨roundPos (r.val + 1), by simp [seqPos_roundEdge hp]⟩
  · exact ⟨.idle, by simp⟩

/-- Settles O21: an edge from no legal position faults, one from a legal position completes, and none leads out of the legal
positions. -/
theorem stepFaultsExactlyInUnreachableStates : Obligations.StepFaultsExactlyInUnreachableStates := by
  unfold Obligations.StepFaultsExactlyInUnreachableStates
  simp only [unreachableSeq_iff]
  refine ⟨by decide, fun s hr => ⟨step_none hr, fun hlegal => ?_⟩⟩
  obtain ⟨p, hp⟩ := Option.ne_none_iff_exists'.1 hlegal
  obtain ⟨t, ht⟩ := step_answers_next hp
  obtain ⟨q, hq⟩ := seqPos_step_next ht
  exact ⟨t, ht, by simp [hq]⟩

/-! ### The run of R173 -/

theorem roundPos_fsm {j : Nat} (hj : j ≤ 11) : (roundPos j).fsm = if j = 11 then .fin else .run := by
  unfold roundPos
  split
  · rw [if_neg (by omega), SeqPos.fsm]
  · rw [if_pos (by omega), SeqPos.fsm]

theorem roundPos_rnd {j : Nat} (hj : j ≤ 11) : (roundPos j).rnd = BitVec.ofNat 4 j := by
  unfold roundPos
  split
  · rw [SeqPos.rnd]
  · rw [show j = 11 by omega]
    rfl

/-- Settles O35: before round `j` or in FIN the run is in its `RunState`, and the edge after FIN leaves the cipher. -/
theorem aRunComputesTheCipher : Obligations.ARunComputesTheCipher := by
  unfold Obligations.ARunComputesTheCipher
  intro m s ha hn
  refine ⟨fun j hj => ?_, ?_⟩
  · obtain ⟨t, hrun, ht, -⟩ := run_reaches_runState ha hn hj
    obtain ⟨hf, hrnd⟩ := seqPos_eq_some.1 ht.pos
    rw [roundPos_fsm hj] at hf
    rw [roundPos_rnd hj] at hrnd
    have hbusy : busy t = true := by
      rw [busy, hf]
      split <;> rfl
    exact ⟨t, hrun, hf, hrnd, hbusy, ht.notDone, ht.block⟩
  · obtain ⟨t, hrun, hp, hdone, hS⟩ := run_result ha hn
    obtain ⟨hf, hrnd⟩ := seqPos_idle.1 hp
    exact ⟨t, hrun, hf, hrnd, by simp [busy, hf], hdone, hS⟩

end Sys2Proof.Machine
end

section
/-! PROOFS. The key inverter and the round trip (46_key_inversion.md): decryption undoes one encryption round at a time on Blocks
that are diffused and reversed, and a host sees the round trip at the ports. -/

namespace Sys2Proof.Machine

/-! ### The key inverter -/

/-- R180's four-fold composition is R113's. -/
theorem keyInvert_keyInvert (k : Block) : keyInvert (keyInvert k) = k := reverse_diffuse_reverse_diffuse k

theorem diffuse_keyInvert (b : Block) : diffuse (keyInvert b) = reverse b := diffuse_reverse_diffuse b

theorem reverse_xorBlock (a b : Block) : reverse (xorBlock a b) = xorBlock (reverse a) (reverse b) :=
  Block.ext_get fun i => by simp

theorem keyInvert_xorBlock (a b : Block) : keyInvert (xorBlock a b) = xorBlock (keyInvert a) (keyInvert b) := by
  simp only [keyInvert, diffuse_xorBlock, reverse_xorBlock]

/-- Both layers of the inverter keep the template (R143). -/
theorem keyInvert_template (c : Word) : keyInvert (template c) = template c := by
  rw [keyInvert, diffuse_template, reverse_template]

/-- A Block whose words are all `x` is kept, since each diffused word is the XOR of seven times `x`. -/
theorem keyInvert_fill (x : Word) : keyInvert (.fill x) = .fill x :=
  Block.ext_get fun i => by simp [keyInvert, diffuse_get]

/-- Settles O50: the involution is R113's law, the two fixed keys are fills, and the worked example is computed. -/
theorem keyInvertIsAnInvolution : Obligations.KeyInvertIsAnInvolution := by
  unfold Obligations.KeyInvertIsAnInvolution
  exact ⟨fun k => ⟨rfl, keyInvert_keyInvert k⟩, keyInvert_fill 0, keyInvert_fill 0xFFFFFFFF, by decide⟩

/-! ### Injections under the key inverter -/

theorem injectEnc_eq_xorBlock (rom b k : Block) (r : Fin 12) :
    injectEnc rom b k r = xorBlock (xorBlock b k) (template (romRC rom r)) :=
  Block.ext_get fun i => by rw [injectEnc_get, xorBlock_get, xorBlock_get]

theorem injectEnc_injectEnc (rom b k : Block) (r : Fin 12) : injectEnc rom (injectEnc rom b k r) k r = b := by
  refine Block.ext_get fun i => ?_
  simp only [injectEnc_get]
  ac_nf
  simp

/-- With the inverted key, the injection of the inverted Block is the inverted injection (step 1 of R183's sketch). -/
theorem injectEnc_keyInvert (rom b k : Block) (r : Fin 12) :
    injectEnc rom (keyInvert b) (keyInvert k) r = keyInvert (injectEnc rom b k r) := by
  simp only [injectEnc_eq_xorBlock, keyInvert_xorBlock, keyInvert_template]

/-- The injection of decryption takes that of encryption off again, under the key inverter. -/
theorem injectDec_keyInvert_injectEnc (rom b k : Block) (r : Fin 12) :
    injectDec rom (keyInvert (injectEnc rom b k r.rev)) (keyInvert k) r = keyInvert b := by
  rw [injectDec_eq_injectEnc_rev, injectEnc_keyInvert, injectEnc_injectEnc]

/-! ### One round undone -/

/-- The three layers after the diffusion, applied again to their reversed result, give the reversed argument (step 3 of R183's
sketch). -/
theorem layers_reverse_layers (u : Block) :
    lateShift (substitute (earlyShift (reverse (lateShift (substitute (earlyShift u)))))) = reverse u := by
  rw [earlyShift_reverse_lateShift, substituteInvertsUpToReversal, lateShift_reverse_earlyShift]

/-- What `FINAL` makes of the Block after the first `r` main rounds of an encryption, with the round constant `r`: the encryption
cut short before round `r`. The whole encryption is the one cut short before round index 11. -/
def encryptCutAt (rom b k : Block) (r : Fin 12) : Block :=
  keyInvert (injectEnc rom (afterRounds rom .enc b k r.val) k r)

theorem encrypt_eq_encryptCutAt (rom b k : Block) : encrypt rom b k = encryptCutAt rom b k 11 := rfl

/-- A decryption round undoes the last main round of an encryption that is cut short (steps 2 and 3 of R183's sketch). -/
theorem mainRound_dec_encryptCutAt (rom b k : Block) (r : Fin 11) :
    mainRound rom .dec (encryptCutAt rom b k r.rev.succ) (keyInvert k) r = encryptCutAt rom b k r.rev.castSucc := by
  have hinject : injectDec rom (encryptCutAt rom b k r.rev.succ) (keyInvert k) r.castSucc =
      keyInvert (mainRound rom .enc (afterRounds rom .enc b k r.rev.val) k r.rev) := by
    rw [encryptCutAt, Fin.val_succ, afterRounds_succ, ← Fin.rev_castSucc, injectDec_keyInvert_injectEnc]
  rw [mainRound, inject_dec, hinject, diffuse_keyInvert, mainRound, layers_reverse_layers]
  rfl

/-- The final transform of decryption undoes the injection that is left (step 4 of R183's sketch). -/
theorem finalTransform_dec_encryptCutAt (rom b k : Block) :
    finalTransform rom .dec (encryptCutAt rom b k 0) (keyInvert k) = b := by
  have hinject : injectDec rom (encryptCutAt rom b k 0) (keyInvert k) 11 = keyInvert b :=
    injectDec_keyInvert_injectEnc rom b k 11
  rw [finalTransform, inject_dec, hinject, diffuse_keyInvert, reverse_reverse]

/-! ### The round trip -/

/-- After `r` rounds of decryption the Block is the encryption cut short by `r` rounds. -/
theorem afterRounds_dec_encrypt (rom b k : Block) (r : Fin 12) :
    afterRounds rom .dec (encrypt rom b k) (keyInvert k) r.val = encryptCutAt rom b k r.rev := by
  induction r using Fin.induction with
  | zero => exact encrypt_eq_encryptCutAt rom b k
  | succ r ih =>
    rw [Fin.val_castSucc, Fin.rev_castSucc] at ih
    rw [Fin.val_succ, afterRounds_succ, ih, mainRound_dec_encryptCutAt, Fin.rev_succ]

/-- Settles O51: the eleven rounds of decryption undo those of encryption one by one, and its final transform the rest. -/
theorem decryptUndoesEncrypt : Obligations.DecryptUndoesEncrypt := by
  unfold Obligations.DecryptUndoesEncrypt
  intro rom b k
  have hrounds : afterRounds rom .dec (encrypt rom b k) (keyInvert k) 11 = encryptCutAt rom b k 0 :=
    afterRounds_dec_encrypt rom b k 11
  rw [decrypt, workingKey_dec, cipher, hrounds, finalTransform_dec_encryptCutAt]

/-! ### What a run leaves of the ROM and of the host's lines -/

/-- A run that answers a next state after `n + 1` edges answers one after the first. -/
theorem run_succ_next {n : Nat} {s t : State} (h : run (n + 1) s = .next t) :
    ∃ u, step s = .next u ∧ run n u = .next t := by
  cases hs : step s with
  | next u => exact ⟨u, rfl, by rwa [run_succ hs] at h⟩
  | fault f => simp [run, hs] at h
  | refused r => simp [run, hs] at h

/-- No run writes the ROM (R6, R41). -/
theorem run_rom {n : Nat} {s t : State} (h : run n s = .next t) : t.rom = s.rom := by
  induction n generalizing s with
  | zero => cases h; rfl
  | succ n ih =>
    obtain ⟨u, hu, hrun⟩ := run_succ_next h
    exact (ih hrun).trans (noStepWritesTheRom s u hu)

@[simp] theorem command_lines (c : BitVec 2) (s : State) : (command c s).lines = s.lines := by
  obtain rfl | rfl | rfl | rfl := cmd_cases c <;> rfl

/-- Every edge is followed by the host's drive from the lines that stood before it. -/
theorem step_next_hostDrives {s t : State} (h : step s = .next t) : ∃ u, u.lines = s.lines ∧ t = hostDrives u := by
  obtain ⟨-, rfl⟩ | ⟨-, -, rfl⟩ | ⟨r, -, -, rfl⟩ | ⟨-, -, rfl⟩ := step_next_cases h
  · exact ⟨_, resetRegs_lines s, rfl⟩
  · exact ⟨_, command_lines _ s, rfl⟩
  · exact ⟨_, by simp, rfl⟩
  · exact ⟨_, by simp, rfl⟩

/-- While the host's lines last, a run of `n` edges uses up the first `n` of what the host drives. -/
theorem run_drops_lines {n : Nat} {s t : State} (h : run n s = .next t) (hn : n ≤ s.lines.length) :
    t.ports :: t.lines = (s.ports :: s.lines).drop n := by
  induction n generalizing s with
  | zero => cases h; rfl
  | succ n ih =>
    obtain ⟨u, hu, hrun⟩ := run_succ_next h
    obtain ⟨v, hv, rfl⟩ := step_next_hostDrives hu
    cases hl : s.lines with
    | nil => simp [hl] at hn
    | cons l ls =>
      rw [hostDrives_cons (hv.trans hl)] at hrun
      exact ih hrun (by simpa [hl] using hn)

/-! ### The round trip at the ports -/

/-- A host that drives two programs in a row drives the second once the edges of the first are over. -/
theorem drivesAll_take_append {a b : List Line} {ps : List Inputs}
    (h : drivesAll (a ++ b) (ps.take (a.length + b.length)) = true) :
    drivesAll a (ps.take a.length) = true ∧ drivesAll b ((ps.drop a.length).take b.length) = true := by
  have hparts := drivesAll_append h
  rwa [List.take_take, Nat.min_eq_left (Nat.le_add_right _ _), List.drop_take, Nat.add_sub_cancel_left] at hparts

/-- A command followed by 12 edges of waiting ends in IDLE, with the ROM as it was. -/
theorem run_command_and_wait_idle {m : Mode} {s : State} {b k : Block} (hp : seqPos s = some .idle)
    (h : drivesAll (m.line b k :: List.replicate 12 .nop) ((s.ports :: s.lines).take 13) = true) :
    ∃ t, run 13 s = .next t ∧ seqPos t = some .idle ∧ t.rom = s.rom := by
  obtain ⟨hline, hwait⟩ := drivesAll_cons h
  obtain ⟨hr, hc, -, -⟩ := drives_line hline
  have ha : accepts m s := ⟨⟨hr, seqPos_idle.1 hp⟩, hc⟩
  obtain ⟨t, hrun, hidle, -, -⟩ := run_result ha (noResetFor_of_wait hwait)
  exact ⟨t, hrun, hidle, run_rom hrun⟩

/-- Settles O37: the first 13 lines bring the core back to IDLE with the same ROM, where the next 13 find it; their run decrypts
what the same ROM and key encrypted. -/
theorem encryptThenDecryptAtThePorts : Obligations.EncryptThenDecryptAtThePorts := by
  unfold Obligations.EncryptThenDecryptAtThePorts
  intro s b k hf hn h
  have hlen : ((s.ports :: s.lines).take 26).length = 26 := drivesAll_length h
  obtain ⟨henc, hdec⟩ := drivesAll_take_append (a := Mode.enc.line b k :: List.replicate 12 .nop)
    (b := Mode.dec.line (encrypt s.rom b k) k :: List.replicate 12 .nop) h
  obtain ⟨t, hrun, hidle, hrom⟩ := run_command_and_wait_idle (seqPos_idle.2 ⟨hf, hn⟩) henc
  have hlines : t.ports :: t.lines = (s.ports :: s.lines).drop 13 :=
    run_drops_lines hrun (by simp at hlen; omega)
  obtain ⟨u, hrun', hdone, hout⟩ := run_command_and_wait hidle (hlines ▸ hdec)
  refine ⟨u, (run_add hrun 13).trans hrun', hdone, ?_⟩
  rw [hout, hrom]
  exact congrArg pack (decryptUndoesEncrypt s.rom b k)

end Sys2Proof.Machine
end

section
/-! PROOFS. The commands (47_commands.md R190 to R194): what each command row answers in IDLE, in RUN and in FIN, as a
function of the value of `cmd` that selects the row. -/

namespace Sys2Proof.Machine

/-! ### The rows in their contexts -/

/-- A command row in IDLE performs its command. -/
theorem exec_cmdRow_idle (c : BitVec 2) {s : State} (h : atPos .idle s) :
    exec (decodeCmdIdle c) s = .next (command c s) := by
  obtain ⟨hr, hpos⟩ := h
  rw [exec_decodeCmdIdle, idleEdge_next hr (seqPos_eq_some.2 hpos)]

/-- A command row in RUN is a main round and the collision of its command (R194, R226). -/
theorem exec_cmdRow_run (c : BitVec 2) {s : State} {r : Fin 11} (h : atPos (.run r) s) :
    exec (decodeCmdBusy c) s = .next
      { s with
        S := mainRound s.rom s.mode s.S s.K r
        rnd := if r = 10 then 11 else BitVec.ofNat 4 (r.val + 1)
        fsm := if r = 10 then .fin else .run
        err := if c ≠ 0 then true else s.err } := by
  obtain ⟨hr, hpos⟩ := h
  have hp : seqPos s = some (.run r) := seqPos_eq_some.2 hpos
  rw [exec_decodeCmdBusy, busyEdge_run hr hp, collide_roundEdge_eq s.mode c hp]

/-- A command row in FIN is the final transform and the collision of its command (R194, R226). -/
theorem exec_cmdRow_fin (c : BitVec 2) {s : State} (h : atPos .fin s) :
    exec (decodeCmdBusy c) s = .next
      { s with
        S := finalTransform s.rom s.mode s.S s.K
        rnd := 0
        fsm := .idle
        done := true
        err := if c ≠ 0 then true else s.err } := by
  obtain ⟨hr, hpos⟩ := h
  rw [exec_decodeCmdBusy, busyEdge_fin hr (seqPos_eq_some.2 hpos), collide_finalEdge_eq]

/-- The three COLLIDE rows are those of the commands other than 00 (R61). -/
theorem collideRow_eq_decodeCmdBusy {i : Instr} (h : i = .collideEnc ∨ i = .collideDec ∨ i = .collideRsvd) :
    ∃ c, c ≠ 0 ∧ i = decodeCmdBusy c := by
  obtain rfl | rfl | rfl := h
  · exact ⟨0b01, by decide, rfl⟩
  · exact ⟨0b10, by decide, rfl⟩
  · exact ⟨0b11, by decide, rfl⟩

/-! ### The statements -/

/-- Settles O12: the rows of `cmd = 00`, which collides with nothing. -/
theorem nopChangesNothingAndLetsARunGoOn : Obligations.NopChangesNothingAndLetsARunGoOn := by
  unfold Obligations.NopChangesNothingAndLetsARunGoOn
  exact fun s => ⟨exec_cmdRow_idle 0b00, fun r => exec_cmdRow_run 0b00, exec_cmdRow_fin 0b00⟩

/-- Settles O13: the row of `cmd = 01`, an acceptance for encryption. -/
theorem encAcceptsAnEncryption : Obligations.EncAcceptsAnEncryption := by
  unfold Obligations.EncAcceptsAnEncryption
  exact fun s h => ⟨accept .enc s, exec_cmdRow_idle 0b01 h, rfl, rfl⟩

/-- Settles O14: the row of `cmd = 10`, an acceptance for decryption; the working key is the inverted one (R181). -/
theorem decAcceptsADecryption : Obligations.DecAcceptsADecryption := by
  unfold Obligations.DecAcceptsADecryption
  exact fun s h => ⟨accept .dec s, exec_cmdRow_idle 0b10 h, rfl, rfl⟩

/-- Settles O15: the row of `cmd = 11` raises `err`. -/
theorem reservedCommandSetsOnlyErr : Obligations.ReservedCommandSetsOnlyErr := by
  unfold Obligations.ReservedCommandSetsOnlyErr
  exact fun s h => exec_cmdRow_idle 0b11 h

/-- Settles O19: the rows of the commands other than 00, each with its collision. -/
theorem collisionSetsErrAndTheRunContinues : Obligations.CollisionSetsErrAndTheRunContinues := by
  unfold Obligations.CollisionSetsErrAndTheRunContinues
  intro s i hi
  obtain ⟨c, hc, rfl⟩ := collideRow_eq_decodeCmdBusy hi
  refine ⟨fun r h => ?_, fun h => ?_⟩
  · rw [exec_cmdRow_run c h, if_pos hc]
  · rw [exec_cmdRow_fin c h, if_pos hc]

end Sys2Proof.Machine
end

section
/-! PROOFS. The error conditions (60_exceptions.md): `err` stays until acceptance or reset (R224), an error edge changes nothing
else (R223), and a host that respects R258 raises none. -/

namespace Sys2Proof.Machine

/-! ### `err` is sticky -/

/-- Once set, `err` stays set at an edge that is neither a reset edge nor an acceptance edge. -/
theorem step_keeps_err {s t : State} (h : step s = .next t) (hr : s.ports.rst = false) (hna : ∀ m, ¬ accepts m s)
    (he : s.err = true) : t.err = true := by
  obtain ⟨p, hp, hf⟩ := seqPos_of_step_next h hr
  cases p with
  | idle =>
    rw [step_next_idle h hr hf, hostDrives_err]
    obtain hc | hc := cmd_of_not_accepts hr hp hna <;> rw [hc]
    · exact he
    · exact raiseErr_err s
  | run r => rw [step_err_busy h hr (.inl hf), he, Bool.true_or]
  | fin => rw [step_err_busy h hr (.inr hf), he, Bool.true_or]

/-- An acceptance edge clears `err` (R28). -/
theorem step_clears_err_of_accepts {m : Mode} {s t : State} (h : step s = .next t) (ha : accepts m s) :
    t.err = false := by
  rw [step_accepts ha] at h
  cases h
  rw [hostDrives_err, accept_err]

/-- Settles O28: reset and acceptance clear `err`, and every other edge keeps it. -/
theorem errIsStickyUntilAcceptanceOrReset : Obligations.ErrIsStickyUntilAcceptanceOrReset := by
  unfold Obligations.ErrIsStickyUntilAcceptanceOrReset
  intro s t h he
  constructor
  · intro ht
    by_contra hneither
    obtain ⟨hr, hna⟩ := not_or.1 hneither
    have hkept : t.err = true := step_keeps_err h (Bool.eq_false_iff.2 hr) (not_exists.1 hna) he
    simp [hkept] at ht
  · rintro (hr | ⟨m, ha⟩)
    · rw [step_next_rst h hr, hostDrives_err, resetRegs_err]
    · exact step_clears_err_of_accepts h ha

/-! ### An error edge and the same edge without the command -/

/-- The state in which the host drives no command at the coming edge. -/
def withoutCommand (s : State) : State := { s with ports := { s.ports with cmd := 0b00 } }

theorem collide_of_ne_zero {c : BitVec 2} (hc : c ≠ 0) (s : State) : collide c s = raiseErr s := if_pos hc

/-- With an error condition an edge is the edge without the command, and `err` is raised besides (R222, R223). -/
theorem step_error_edge {s : State} {p : SeqPos} (hr : s.ports.rst = false) (hp : seqPos s = some p)
    (herr : s.fsm = .idle ∧ s.ports.cmd = 0b11 ∨ s.fsm ≠ .idle ∧ s.ports.cmd ≠ 0b00) :
    ∃ v, step s = .next (hostDrives (raiseErr v)) ∧
      step (withoutCommand s) = .next (hostDrives (withoutCommand v)) := by
  have hf : s.fsm = p.fsm := (seqPos_eq_some.1 hp).1
  have hcmd : s.fsm ≠ .idle → s.ports.cmd ≠ 0 := fun hne => herr.elim (fun h => absurd h.1 hne) (·.2)
  cases p with
  | idle =>
    have hc : s.ports.cmd = 0b11 := herr.elim (·.2) fun h => absurd hf h.1
    exact ⟨s, by rw [step_idle hr hp, hc, command_reserved], step_idle (s := withoutCommand s) hr hp⟩
  | run r =>
    have hc : s.ports.cmd ≠ 0 := hcmd (by simp [hf, SeqPos.fsm])
    exact ⟨roundEdge s.mode r s, by rw [step_run hr hp, collide_of_ne_zero hc],
      step_run (s := withoutCommand s) hr hp⟩
  | fin =>
    have hc : s.ports.cmd ≠ 0 := hcmd (by simp [hf, SeqPos.fsm])
    exact ⟨finalEdge s.mode s, by rw [step_fin hr hp, collide_of_ne_zero hc],
      step_fin (s := withoutCommand s) hr hp⟩

/-- Settles O29: the two edges lead to one state, but for `err` and the port `cmd`. -/
theorem anErrorMutatesNothingButErr : Obligations.AnErrorMutatesNothingButErr := by
  unfold Obligations.AnErrorMutatesNothingButErr
  intro s hr hlegal herr
  obtain ⟨p, hp⟩ := Option.ne_none_iff_exists'.1 (mt unreachableSeq_iff.2 hlegal)
  obtain ⟨v, hstep, hstep'⟩ := step_error_edge hr hp herr
  exact ⟨_, _, hstep, hstep', by simp [withoutCommand]⟩

/-! ### A host that respects R258 -/

/-- A command other than 00 and 11 asks for a run (R60). -/
theorem cmd_asks_run_of_ne {c : BitVec 2} (h0 : c ≠ 0b00) (h3 : c ≠ 0b11) : c = 0b01 ∨ c = 0b10 := by
  obtain h | h | h | h := cmd_cases c
  · exact absurd h h0
  · exact .inl h
  · exact .inr h
  · exact absurd h h3

/-- Settles O30: with `cmd = 00` an edge keeps `err`, and any other command of such a host comes in IDLE and is accepted. -/
theorem aWellBehavedHostNeverRaisesErr : Obligations.AWellBehavedHostNeverRaisesErr := by
  unfold Obligations.AWellBehavedHostNeverRaisesErr
  rintro s hinv ⟨hne, hbusy⟩ he
  obtain ⟨p, hp⟩ := (seqInv_iff.1 hinv).1
  obtain ⟨t, ht⟩ := step_answers_next hp
  refine ⟨t, ht, ?_⟩
  obtain ⟨-, hrst, hedge⟩ := errChangesOnlyByErrorAcceptanceAndReset s t ht
  cases hr : s.ports.rst with
  | true => exact hrst hr
  | false =>
    obtain ⟨-, -, haccept, hkeep⟩ := hedge hr
    by_cases hc : s.ports.cmd = 0b00
    · exact (hkeep hc).trans he
    · have hf : s.fsm = .idle := by simpa [busy] using mt hbusy hc
      exact haccept hf (cmd_asks_run_of_ne hc hne)

end Sys2Proof.Machine
end

section
/-! PROOFS. Reset (70_reset_and_hazards.md R250, R251, R262) and a command that is held through a run (R259). -/

namespace Sys2Proof.Machine

/-! ### The reset edge -/

theorem resetValues_resetRegs (s : State) : resetValues (resetRegs s) := by simp [resetValues]

/-- The host's next drive leaves the registers at their reset values. -/
theorem resetValues_hostDrives {s : State} (h : resetValues s) : resetValues (hostDrives s) := by
  simpa [resetValues] using h

theorem unpack_zero : unpack 0 = Block.zero := Block.ext_get fun i => by simp

theorem pack_zero : pack Block.zero = 0 := by
  rw [← unpack_zero, pack_unpack]

/-- What the host reads after a reset edge (R251). -/
theorem outputs_of_resetValues {s : State} (h : resetValues s) : outputs s = ⟨0, false, false, false⟩ := by
  obtain ⟨hS, -, -, -, hf, hd, he⟩ := h
  simp [outputs, blockOut, busy, hS, hf, hd, he, pack_zero]

/-- Settles O9: the row writes the reset values and neither the ROM nor what the host drives. -/
theorem resetRowSetsEveryRegister : Obligations.ResetRowSetsEveryRegister := by
  unfold Obligations.ResetRowSetsEveryRegister
  have hreset : resetValues State.reset := resetValues_resetRegs State.reset
  refine ⟨hreset, outputs_of_resetValues hreset, fun s cc => ?_⟩
  have hregs : resetValues (resetRegs s) := resetValues_resetRegs s
  exact ⟨resetRegs s, rfl, hregs, outputs_of_resetValues hregs, resetRegs_rom s, resetRegs_ports s, resetRegs_lines s⟩

/-- Settles O10: an edge with `rst = 1` runs the row RST, and the host's next drive touches no register. -/
theorem resetEdgeFromEveryState : Obligations.ResetEdgeFromEveryState := by
  unfold Obligations.ResetEdgeFromEveryState
  intro s hr
  have hregs : resetValues (hostDrives (resetRegs s)) := resetValues_hostDrives (resetValues_resetRegs s)
  exact ⟨_, step_rst hr, hregs, outputs_of_resetValues hregs, by simp⟩

/-- Settles O11: after the reset edge the core is in IDLE, where the command on the next line is accepted. -/
theorem resetEndsARunAndTheNextCommandStartsAFreshOne :
    Obligations.ResetEndsARunAndTheNextCommandStartsAFreshOne := by
  unfold Obligations.ResetEndsARunAndTheNextCommandStartsAFreshOne
  intro s l ls m hr hl hlr hlc
  have hstep := step_rst hr
  have hout := outputs_of_resetValues (resetValues_hostDrives (resetValues_resetRegs s))
  simp only [outputs, Outputs.mk.injEq] at hout
  obtain ⟨hblock, hbusy, hdone, -⟩ := hout
  refine ⟨⟨_, hstep, hdone, hblock, hbusy⟩, ?_⟩
  rw [hostDrives_cons (s := resetRegs s) hl] at hstep
  have ha : accepts m { resetRegs s with ports := l, lines := ls } := ⟨⟨hlr, rfl, rfl⟩, hlc⟩
  exact ⟨_, (run_succ hstep 1).trans (run_succ (step_accepts ha) 0), by simp [blockOperand, keyOperand]⟩

/-! ### A held command -/

theorem command_ne_zero (m : Mode) : m.command ≠ 0 := by
  cases m <;> decide

/-- While the host's lines last, what it drives after `n + 1` edges is one of its first `n + 1` lines. -/
theorem run_ports_mem {n : Nat} {s t : State} (h : run (n + 1) s = .next t) (hn : n + 1 ≤ s.lines.length) :
    t.ports ∈ s.lines.take (n + 1) := by
  have hdrop : t.ports :: t.lines = s.lines.drop n := run_drops_lines h hn
  rw [List.drop_eq_getElem_cons hn] at hdrop
  rw [(List.cons.inj hdrop).1]
  exact List.mem_take_iff_getElem.2 ⟨n, by omega, rfl⟩

/-- A command at an edge of a run in progress, FIN included, sets `err` (R194). -/
theorem RunState.collides {m : Mode} {s t : State} {j : Nat} (h : RunState m s j t) (hj : j ≤ 11)
    (hr : t.ports.rst = false) (hc : t.ports.cmd ≠ 0) : ∃ u, step t = .next u ∧ u.err = true := by
  obtain ⟨u, hu⟩ := step_answers_next h.pos
  have hf : t.fsm = if j = 11 then .fin else .run := (seqPos_eq_some.1 h.pos).1.trans (roundPos_fsm hj)
  have hbusy : t.fsm = .run ∨ t.fsm = .fin := by
    by_cases h11 : j = 11
    · exact .inr (hf.trans (if_pos h11))
    · exact .inl (hf.trans (if_neg h11))
  exact ⟨u, hu, by rw [step_err_busy hu hr hbusy, bne_iff_ne.2 hc, Bool.or_true]⟩

/-- An acceptance edge starts a run with both status bits clear (R27, R28). -/
theorem step_accepts_starts {m : Mode} {s : State} (ha : accepts m s) :
    ∃ t, step s = .next t ∧ t.fsm = .run ∧ t.rnd = 0 ∧ t.done = false ∧ t.err = false :=
  ⟨_, step_accepts ha, by simp⟩

/-- Settles O38: a held command is one of the host's lines at every edge of the run, where it collides, and at the first edge
after it, where IDLE accepts it. -/
theorem aHeldCommandStartsASecondRun : Obligations.AHeldCommandStartsASecondRun := by
  unfold Obligations.AHeldCommandStartsASecondRun
  intro m s ha hn
  have hlen : 12 ≤ s.lines.length := hn.1
  refine ⟨?_, fun j h1 h12 hheld => ?_, fun hn13 hheld => ?_⟩
  · obtain ⟨t, ht, hf, hrnd, -, he⟩ := step_accepts_starts ha
    exact ⟨t, run_succ ht 0, hf, hrnd, he⟩
  · obtain ⟨i, rfl⟩ := Nat.exists_eq_add_of_le' h1
    have hi : i ≤ 11 := by omega
    obtain ⟨t, hrun, ht, hr, -⟩ := run_reaches_runState ha hn hi
    have hc : t.ports.cmd = m.command := hheld t.ports (run_ports_mem hrun (by omega))
    obtain ⟨u, hu, he⟩ := ht.collides hi hr (hc ▸ command_ne_zero m)
    exact ⟨u, (run_add hrun 1).trans (run_succ hu 0), he⟩
  · obtain ⟨hlen13, hrst⟩ := hn13
    obtain ⟨t, hrun, hp, -, -⟩ := run_result ha hn
    have hmem : t.ports ∈ s.lines.take 13 := run_ports_mem hrun hlen13
    have ha' : accepts m t := ⟨⟨hrst t.ports hmem, seqPos_idle.1 hp⟩, hheld t.ports hmem⟩
    obtain ⟨u, hu, hstart⟩ := step_accepts_starts ha'
    exact ⟨u, (run_add hrun 1).trans (run_succ hu 0), hstart⟩

end Sys2Proof.Machine
end
